-- ==== Sys2Proof/Word.lean ====
section
/-! DEFINITION. The Word of the machine: a signed integer in `[WMIN, WMAX]` (rules R4, R6), held as its 64-bit
two's complement (`XLEN` = 64, "signed two's complement"). Every rule reads a Word through `BitVec.toInt`: the
hardware has no bit-level and no unsigned view of a Word (R6). Log entry 1. -/

namespace Sys2Proof

/-- One Word: a memory cell, a queue element, `ip` (R4). -/
abbrev Word := BitVec 64

/-- `WMIN = -2^63` (R4). -/
abbrev wMin : Int := -9223372036854775808

/-- `WMAX = 2^63 - 1` (R4). -/
abbrev wMax : Int := 9223372036854775807

end Sys2Proof
end

