-- ==== Sys2Proof/Syntax.lean ====
section
/-! DEFINITION. The instructions: one constructor per row of spec/opcode_table.json (R56). An instruction here is
what the decoder reads from the instruction word alone (R88): the mode of each read operand and the surplus
digits. A write target has no mode field, since only position mode is legal there (R58). The parameter words are
memory cells that operand resolution reads afterwards (R70), so they are not part of the syntax. Log entry 13. -/

namespace Sys2Proof

/-- The two addressing modes, mode digits 0 and 1 (R54). -/
inductive Mode where
  | position
  | immediate
  deriving DecidableEq, Repr

/-- The nine rows of the opcode table, by mnemonic (R56); what a trace record names (R22). -/
inductive Mnemonic where
  | add
  | multiply
  | store
  | output
  | jumpIfTrue
  | jumpIfFalse
  | lessThan
  | equals
  | halt
  deriving DecidableEq, Repr

/-- A legal instruction word (R56 to R60). `a`, `b` are the modes of parameters 1 and 2; `surplus` is the number
formed by the decimal digits above the last parameter's mode digit, which execution ignores (R55) and the trace
keeps (R22). -/
inductive Instr where
  | add (a b : Mode) (surplus : Nat)
  | multiply (a b : Mode) (surplus : Nat)
  | store (surplus : Nat)
  | output (a : Mode) (surplus : Nat)
  | jumpIfTrue (a b : Mode) (surplus : Nat)
  | jumpIfFalse (a b : Mode) (surplus : Nat)
  | lessThan (a b : Mode) (surplus : Nat)
  | equals (a b : Mode) (surplus : Nat)
  | halt (surplus : Nat)
  deriving DecidableEq, Repr

end Sys2Proof
end

