-- ==== Sys2Proof/WellFormed.lean ====
section
/-! DEFINITION. When an instruction has an instruction word: its surplus digits must leave the word within
`[0, WMAX]` (R4, R51). Mode fields are legal by their type. One check per format of R57. -/

namespace Sys2Proof

/-- The greatest surplus of format F3 (`..CBA07` and so on): five digits below it, at most 01108. -/
def surplusLimitF3 : Nat := (9223372036854775807 - 1108) / 100000

/-- The greatest surplus of format F2 (`..BA06`): four digits below it, at most 1106. -/
def surplusLimitF2 : Nat := (9223372036854775807 - 1106) / 10000

/-- The greatest surplus of formats F1R and F1W (`..A04`): three digits below it, at most 104. -/
def surplusLimitF1 : Nat := (9223372036854775807 - 104) / 1000

/-- The greatest surplus of format F0 (`..99`): two digits below it, always 99. -/
def surplusLimitF0 : Nat := (9223372036854775807 - 99) / 100

/-- The instruction's word is a Word. -/
def Instr.wellFormed : Instr → Bool
  | .add _ _ surplus => surplus ≤ surplusLimitF3
  | .multiply _ _ surplus => surplus ≤ surplusLimitF3
  | .store surplus => surplus ≤ surplusLimitF1
  | .output _ surplus => surplus ≤ surplusLimitF1
  | .jumpIfTrue _ _ surplus => surplus ≤ surplusLimitF2
  | .jumpIfFalse _ _ surplus => surplus ≤ surplusLimitF2
  | .lessThan _ _ surplus => surplus ≤ surplusLimitF3
  | .equals _ _ surplus => surplus ≤ surplusLimitF3
  | .halt surplus => surplus ≤ surplusLimitF0

end Sys2Proof
end

