-- ==== Sys2Proof/Decode.lean ====
section
/-! DEFINITION. The decoder (R51 to R60, R88), total on every Word and rejecting by name, and the encoder. The
encoding is decimal: `code = word mod 100`, `mode = word div 100`, and parameter `k`'s mode digit is
`digit(mode, k - 1)`. -/

namespace Sys2Proof

/-- `digit(v, i)`: the decimal digit of weight `10^i` (R5). -/
def digit (v i : Nat) : Nat := v / 10 ^ i % 10

/-- The opcode number of a row (R56). -/
def Mnemonic.code : Mnemonic → Nat
  | .add => 1
  | .multiply => 2
  | .store => 3
  | .output => 4
  | .jumpIfTrue => 5
  | .jumpIfFalse => 6
  | .lessThan => 7
  | .equals => 8
  | .halt => 99

/-- The row's mnemonic as the table spells it (R56). -/
def Mnemonic.name : Mnemonic → String
  | .add => "add"
  | .multiply => "multiply"
  | .store => "store"
  | .output => "output"
  | .jumpIfTrue => "jump-if-true"
  | .jumpIfFalse => "jump-if-false"
  | .lessThan => "less-than"
  | .equals => "equals"
  | .halt => "halt"

/-- The declared parameter count `n` (R56). -/
def Mnemonic.params : Mnemonic → Nat
  | .add => 3
  | .multiply => 3
  | .store => 1
  | .output => 1
  | .jumpIfTrue => 2
  | .jumpIfFalse => 2
  | .lessThan => 3
  | .equals => 3
  | .halt => 0

/-- The write-target parameter, if any (R56). -/
def Mnemonic.writeTarget : Mnemonic → Option Nat
  | .add => some 3
  | .multiply => some 3
  | .store => some 1
  | .output => none
  | .jumpIfTrue => none
  | .jumpIfFalse => none
  | .lessThan => some 3
  | .equals => some 3
  | .halt => none

/-- The row an opcode number selects; `none` for `00` and `09` to `98` (R59). -/
def Mnemonic.ofCode (code : Nat) : Option Mnemonic :=
  match code with
  | 1 => some .add
  | 2 => some .multiply
  | 3 => some .store
  | 4 => some .output
  | 5 => some .jumpIfTrue
  | 6 => some .jumpIfFalse
  | 7 => some .lessThan
  | 8 => some .equals
  | 99 => some .halt
  | _ => none

/-- Why a Word is no legal instruction word; in the order the decoder looks (R60). -/
inductive DecodeError where
  /-- `w < 0` (R52) -/
  | negativeWord
  /-- the low two digits select no row (R59) -/
  | unknownOpcode (code : Nat)
  /-- a reserved mode digit, 2 to 9, on parameter `k` (R54) -/
  | modeError (k digit : Nat)
  /-- immediate mode on the write target, parameter `k` (R58) -/
  | immediateWriteTarget (k : Nat)
  deriving DecidableEq, Repr

/-- The mode of parameter `k` (R53, R54). -/
def parameterMode (mode k : Nat) : Except DecodeError Mode :=
  match digit mode (k - 1) with
  | 0 => .ok .position
  | 1 => .ok .immediate
  | d => .error (.modeError k d)

/-- Format F3: two read parameters, then a write target; every ModeError comes before ImmediateWriteTarget (R60). -/
def decodeF3 (make : Mode → Mode → Nat → Instr) (mode : Nat) : Except DecodeError Instr :=
  match parameterMode mode 1 with
  | .error e => .error e
  | .ok a =>
    match parameterMode mode 2 with
    | .error e => .error e
    | .ok b =>
      match parameterMode mode 3 with
      | .error e => .error e
      | .ok .immediate => .error (.immediateWriteTarget 3)
      | .ok .position => .ok (make a b (mode / 1000))

/-- Format F2: two read parameters. -/
def decodeF2 (make : Mode → Mode → Nat → Instr) (mode : Nat) : Except DecodeError Instr :=
  match parameterMode mode 1 with
  | .error e => .error e
  | .ok a =>
    match parameterMode mode 2 with
    | .error e => .error e
    | .ok b => .ok (make a b (mode / 100))

/-- Format F1R: one read parameter. -/
def decodeF1R (make : Mode → Nat → Instr) (mode : Nat) : Except DecodeError Instr :=
  match parameterMode mode 1 with
  | .error e => .error e
  | .ok a => .ok (make a (mode / 10))

/-- Format F1W: one write target. -/
def decodeF1W (make : Nat → Instr) (mode : Nat) : Except DecodeError Instr :=
  match parameterMode mode 1 with
  | .error e => .error e
  | .ok .immediate => .error (.immediateWriteTarget 1)
  | .ok .position => .ok (make (mode / 10))

/-- The decoder on a word that is already split (R51, R56, R57). -/
def decodeSplit (code mode : Nat) : Except DecodeError Instr :=
  match Mnemonic.ofCode code with
  | none => .error (.unknownOpcode code)
  | some .add => decodeF3 .add mode
  | some .multiply => decodeF3 .multiply mode
  | some .store => decodeF1W .store mode
  | some .output => decodeF1R .output mode
  | some .jumpIfTrue => decodeF2 .jumpIfTrue mode
  | some .jumpIfFalse => decodeF2 .jumpIfFalse mode
  | some .lessThan => decodeF3 .lessThan mode
  | some .equals => decodeF3 .equals mode
  | some .halt => .ok (.halt mode)

/-- Decode one instruction word: a negative word is refused before it is split (R52). -/
def decode (w : Word) : Except DecodeError Instr :=
  if w.toInt < 0 then .error .negativeWord
  else decodeSplit (w.toInt.toNat % 100) (w.toInt.toNat / 100)

/-- The instruction the decoder reads from an instruction whose bits are `w` (the host's numbering: bit 0 is the
least significant bit of the first word). A cell is one Word, so the instruction word is the low 64 bits; the
parameter words above it are not looked at by decode (R88). The bits from `nbits` on are zero already, so `nbits`
plays no part. Log entry 14. -/
def decodeTableWord (_nbits w : Nat) : Option Instr :=
  match decode (BitVec.ofNat 64 w) with
  | .ok i => some i
  | .error _ => none

/-! The encoder. -/

/-- The mode digit (R54). -/
def Mode.digit : Mode → Nat
  | .position => 0
  | .immediate => 1

/-- The row of the opcode table an instruction belongs to. -/
def Instr.mnemonic : Instr → Mnemonic
  | .add _ _ _ => .add
  | .multiply _ _ _ => .multiply
  | .store _ => .store
  | .output _ _ => .output
  | .jumpIfTrue _ _ _ => .jumpIfTrue
  | .jumpIfFalse _ _ _ => .jumpIfFalse
  | .lessThan _ _ _ => .lessThan
  | .equals _ _ _ => .equals
  | .halt _ => .halt

/-- The mode word of format F3, `C = 0` (R51, R57). -/
def modeF3 (a b : Mode) (surplus : Nat) : Nat := a.digit + 10 * b.digit + 1000 * surplus

/-- The mode word of format F2 (R51, R57). -/
def modeF2 (a b : Mode) (surplus : Nat) : Nat := a.digit + 10 * b.digit + 100 * surplus

/-- The mode word of format F1R (R51, R57). -/
def modeF1R (a : Mode) (surplus : Nat) : Nat := a.digit + 10 * surplus

/-- The mode word of format F1W, `A = 0` (R51, R57). -/
def modeF1W (surplus : Nat) : Nat := 10 * surplus

/-- The whole mode word, surplus digits included (R51, R55). -/
def Instr.modeWord : Instr → Nat
  | .add a b surplus => modeF3 a b surplus
  | .multiply a b surplus => modeF3 a b surplus
  | .store surplus => modeF1W surplus
  | .output a surplus => modeF1R a surplus
  | .jumpIfTrue a b surplus => modeF2 a b surplus
  | .jumpIfFalse a b surplus => modeF2 a b surplus
  | .lessThan a b surplus => modeF3 a b surplus
  | .equals a b surplus => modeF3 a b surplus
  | .halt surplus => surplus

/-- `code + 100*A + 1000*B + 10000*C` plus the surplus digits (R63). -/
def Instr.wordValue (i : Instr) : Nat := i.mnemonic.code + 100 * i.modeWord

/-- The instruction word of a well-formed instruction. -/
def encode (i : Instr) : Word := BitVec.ofNat 64 i.wordValue

/-- The cells an instruction occupies: its word, then its parameter words (R50). -/
def assemble (i : Instr) (params : List Word) : List Word := encode i :: params

end Sys2Proof
end

