-- ==== Sys2Proof/Config.lean ====
section
/-! DEFINITION. What an implementation fixes (R4). `XLEN` is the width of `Word`; `OVERFLOW_POLICY` is `fault`
(D2) and is built into add and multiply; queues are unbounded (`QUEUE_DEPTH`, D13); the trace text is left out
(`TRACE_TEXT`, D19). `N`, `IMAGE`, `START_POS` and the queue bindings are arguments of the Reset operation. The
spec leaves no result of an instruction undefined, so there is no free value. -/

namespace Sys2Proof

/-- The greatest memory length: `0 <= N <= 2^63 - 4`, so that `ip + 4` always fits a Word (R4, D1). -/
abbrev Config.maxMemory : Nat := 9223372036854775804

end Sys2Proof
end

