-- ==== Sys2Proof/Machine/State.lean ====
section
/-! DEFINITION. The state of the machine, as plain data: every core of the system (R180) with its `ip`, `status`,
`fault`, memory, trace and endpoint bindings (R11 to R23), the queues (R21), and the agenda, the model's own field
that says which move comes next (R181, R205). -/

namespace Sys2Proof.Machine

/-- A core's memory: `size` Words at indices `0 .. size - 1` (R19). `cells` lists index and Word, indices rising; a
cell that is not listed holds the Word 0. Cells are whole Words, not bytes (R36). Log entry 2. -/
structure Memory where
  size : Nat
  cells : List (Nat × Word)
  deriving DecidableEq, Repr

/-- The three values of `status` (R15). Blocked is a predicate, not a fourth value. -/
inductive Status where
  | running
  | halted
  | faulted
  deriving DecidableEq, Repr

/-- The causes of the machine's faults with what the record keeps of each (R160, R161). -/
inductive FaultCause where
  /-- AddressError, Fetch: `ip < 0` or `ip >= N` -/
  | fetch (index : Int)
  /-- AddressError, ImmediateWriteTarget: mode digit 1 on the write target, parameter `k` -/
  | immediateWriteTarget (k : Nat)
  /-- AddressError, Slot: the slot of parameter `k` is outside memory -/
  | slot (k : Nat) (index : Int)
  /-- AddressError, Pointer: the position-mode word of parameter `k` is outside memory -/
  | pointer (k : Nat) (index : Int)
  /-- UnknownOpcodeError, NegativeWord -/
  | negativeWord (word : Word)
  /-- UnknownOpcodeError, Unknown -/
  | unknownOpcode (word : Word) (code : Nat)
  /-- ModeError: mode digit 2 to 9 on parameter `k` -/
  | modeError (k digit : Nat) (word : Word)
  /-- OverflowError of add (1) or multiply (2), with the two operand values -/
  | overflow (code : Nat) (x y : Word)
  deriving DecidableEq, Repr

/-- The fault record: `pos`, the `ip` of the faulting step, and the cause (R16, R161). -/
structure FaultRecord where
  pos : Word
  cause : FaultCause
  deriving DecidableEq, Repr

/-- One record of the trace log: `(pos, code, mode, mnemonic)` (R22). -/
structure TraceRecord where
  pos : Word
  code : Nat
  mode : Nat
  mnemonic : Mnemonic
  deriving DecidableEq, Repr

/-- One core. `trace` is in execution order, oldest first. `inQ` and `outQ` name the queues its endpoints are bound
to (R20, R21). -/
structure CoreState where
  ip : Word
  status : Status
  fault : Option FaultRecord
  mem : Memory
  trace : List TraceRecord
  inQ : Nat
  outQ : Nat
  deriving DecidableEq, Repr

/-- What happens next in the system: one core's step (R181) or one of the host's moves (R205). -/
inductive Move where
  /-- core `k` takes one step (R181) -/
  | coreStep (k : Nat)
  /-- the host pushes a Word onto queue `q` (R205) -/
  | hostPush (q : Nat) (v : Word)
  /-- the host removes the head of queue `q` (R205) -/
  | hostPop (q : Nat)
  /-- `Reset(IMAGE, START_POS, IN_Q, OUT_Q)` of core `k` (R200, R202) -/
  | reset (k : Nat) (image : List Word) (startPos : Word) (inQ outQ : Nat)
  /-- a further core is constructed by the same operation (R180, R202) -/
  | construct (image : List Word) (startPos : Word) (inQ outQ : Nat)
  deriving DecidableEq, Repr

/-- The system. Its cores are `before`, `core`, `after` in this order; `core` is the active one, the one an
instruction's meaning acts on. `queues` lists the non-empty queues by number, rising, each with its oldest element
first; a queue that is not listed is empty. An empty `agenda` means that the active core takes the next step. Log
entries 6 and 7. -/
structure State where
  before : List CoreState
  core : CoreState
  after : List CoreState
  queues : List (Nat × List Word)
  agenda : List Move
  deriving DecidableEq, Repr

/-- Why the machine has no step. A fault of the spec (R160) is no such stop: its entry is a next state. -/
inductive Fault where
  /-- raised by a step of a core whose status is Halted: it takes no further step (R9, R151); safe -/
  | coreHalted
  /-- raised by a step of a core whose status is Faulted: it takes no further step (R9, R171); safe -/
  | coreFaulted
  deriving DecidableEq, Repr

/-- What the model gives no meaning. No instruction's meaning raises any of these. -/
inductive Refusal where
  /-- raised by `exec` for an instruction that has no meaning yet; none is left; safe -/
  | notModelled (mnemonic : String)
  /-- raised by a move that names a core the system does not have; safe -/
  | noSuchCore
  /-- raised by a reset or a construction whose wiring gives a queue two producers or two consumers (R182); safe -/
  | sharedQueueEnd
  /-- raised by a host push or pop at a queue end that a core drives (R147, R205); safe -/
  | hostInterference
  /-- raised by a reset or a construction whose image is longer than the greatest `N` (R4); safe -/
  | imageTooLong
  deriving DecidableEq, Repr

/-- The system right after reset: one core, `Reset([], 0, 0, 1)` (R23, R200), with empty queues and agenda. No
program is in it: images come through the Reset move or `withFetchWord`. Log entry 3. -/
def State.reset : State :=
  { before := []
    core :=
      { ip := 0
        status := .running
        fault := none
        mem := { size := 0, cells := [] }
        trace := []
        inQ := 0
        outQ := 1 }
    after := []
    queues := []
    agenda := [] }

end Sys2Proof.Machine
end

