-- ==== Sys2Proof/Machine/Ops.lean ====
section
/-! DEFINITION. The named operations of the machine: the one sparse store behind memory and queues, memory read
and write (R7, R32), queue push and pop (R7, R130), fault entry (R170), the hold (R93), the advance and the trace
(R90, R91), reset (R200). There is no return from a fault (R171), so none is defined. -/

namespace Sys2Proof.Machine

/-! A sparse store: index and value, indices rising, no value equal to the default `d`. -/

/-- The value at `a`; an index that is not listed holds the default. -/
def Sparse.get {α : Type} (d : α) : List (Nat × α) → Nat → α
  | [], _ => d
  | (k, x) :: rest, a => if k = a then x else Sparse.get d rest a

/-- Store `v` at `a`, keeping the canonical form. -/
def Sparse.put {α : Type} [DecidableEq α] (d : α) (a : Nat) (v : α) : List (Nat × α) → List (Nat × α)
  | [] => if v = d then [] else [(a, v)]
  | (k, x) :: rest =>
    if a < k then (if v = d then (k, x) :: rest else (a, v) :: (k, x) :: rest)
    else if a = k then (if v = d then rest else (a, v) :: rest)
    else (k, x) :: Sparse.put d a v rest

/-- The canonical form: indices strictly rising, no listed value equal to the default. -/
abbrev Sparse.wf {α : Type} (d : α) (l : List (Nat × α)) : Prop :=
  l.Pairwise (fun e f => e.1 < f.1) ∧ ∀ e ∈ l, e.2 ≠ d

/-- A list of values as a store, the first at index `i`. -/
def Sparse.ofList {α : Type} [DecidableEq α] (d : α) : Nat → List α → List (Nat × α)
  | _, [] => []
  | i, x :: xs => if x = d then Sparse.ofList d (i + 1) xs else (i, x) :: Sparse.ofList d (i + 1) xs

/-! Memory. -/

/-- What a cell that is not listed holds. Log entry 2. -/
abbrev Memory.unlisted : Word := 0

/-- The canonical form of a memory: rising indices inside `0 .. size - 1`, no listed 0, and a legal length (R4). -/
abbrev Memory.wf (m : Memory) : Prop :=
  Sparse.wf Memory.unlisted m.cells ∧ (∀ e ∈ m.cells, e.1 < m.size) ∧ m.size ≤ Config.maxMemory

/-- An index is valid exactly when `0 <= a < N` (R32, R33). -/
abbrev Memory.valid (m : Memory) (a : Int) : Prop := 0 ≤ a ∧ a < m.size

/-- `MemRead(a, 1)` with its bounds check: `none` at an index that does not exist (R7, R32). -/
def Memory.read (m : Memory) (a : Int) : Option Word :=
  if m.valid a then some (Sparse.get Memory.unlisted m.cells a.toNat) else none

/-- `MemWrite(a, 1, v)` (R7). An index outside memory is never passed; it would change nothing (R35). -/
def Memory.write (m : Memory) (a : Nat) (v : Word) : Memory :=
  if a < m.size then { m with cells := Sparse.put Memory.unlisted a v m.cells } else m

/-- The memory a reset makes of an image: `N = length(IMAGE)`, `mem[a] = IMAGE[a]` (R200). -/
def Memory.ofImage (image : List Word) : Memory :=
  { size := image.length, cells := Sparse.ofList Memory.unlisted 0 image }

/-! The active core. -/

/-- Replace the active core. -/
def State.setCore (s : State) (c : CoreState) : State := { s with core := c }

/-- `mem[a] <- v` in the active core. -/
def State.writeMem (s : State) (a : Nat) (v : Word) : State :=
  s.setCore { s.core with mem := s.core.mem.write a v }

/-! Queues. -/

/-- The content of queue `q`, oldest element first. -/
def State.queue (s : State) (q : Nat) : List Word := Sparse.get [] s.queues q

/-- Replace the content of queue `q`. -/
def State.setQueue (s : State) (q : Nat) (l : List Word) : State :=
  { s with queues := Sparse.put [] q l s.queues }

/-- Append at the tail (R21, R140). The queue is unbounded (R143). -/
def State.push (s : State) (q : Nat) (v : Word) : State := s.setQueue q (s.queue q ++ [v])

/-- Remove the head (R21, R140). -/
def State.pop (s : State) (q : Nat) : State := s.setQueue q (s.queue q).tail

/-- The queue at the active core's input endpoint; `InEmpty()` is that it is `[]` (R130). -/
def State.inputQueue (s : State) : List Word := s.queue s.core.inQ

/-- `InPop()`'s effect on the queue (R7). -/
def State.inPop (s : State) : State := s.pop s.core.inQ

/-- `OutPush(v)` (R7). -/
def State.outPush (s : State) (v : Word) : State := s.push s.core.outQ v

/-! The ends of a step (R9). -/

/-- Fault entry (R170): status Faulted, the record written with `pos = ip`, and nothing else changes. -/
def State.raise (s : State) (cause : FaultCause) : State :=
  s.setCore { s.core with status := .faulted, fault := some { pos := s.core.ip, cause := cause } }

/-- `hold WaitInput` (R7, R93): no state change at all. Log entry 4. -/
def State.hold (s : State) : State := s

/-- `ip + 1 + n`, the default advance (R12, R90). -/
def CoreState.advanced (c : CoreState) (n : Nat) : Word := c.ip + BitVec.ofNat 64 (1 + n)

/-- Phases 5 and 6 of the step: the new `ip`, and one trace record with the old one (R90, R91). -/
def State.retire (s : State) (m : Mnemonic) (mode : Nat) (nextIp : Word) : State :=
  s.setCore
    { s.core with
      ip := nextIp
      trace := s.core.trace ++ [{ pos := s.core.ip, code := m.code, mode := mode, mnemonic := m }] }

/-- `retire` with the default advance past the instruction's `1 + n` words. -/
def State.retireNext (s : State) (m : Mnemonic) (mode : Nat) : State :=
  s.retire m mode (s.core.advanced m.params)

/-- Phase 7 after a halt: `status <- Halted` (R92). -/
def State.setHalted (s : State) : State := s.setCore { s.core with status := .halted }

/-! Fetch and the causes of the decode faults. -/

/-- Phase 1 (R87): read the word at `ip`, or AddressError Fetch. -/
def CoreState.fetch (c : CoreState) : Except FaultCause Word :=
  match c.mem.read c.ip.toInt with
  | none => .error (.fetch c.ip.toInt)
  | some w => .ok w

/-- What the fault record keeps of a decode fault of the word `w` (R161). -/
def decodeCause (w : Word) : DecodeError → FaultCause
  | .negativeWord => .negativeWord w
  | .unknownOpcode code => .unknownOpcode w code
  | .modeError k d => .modeError k d w
  | .immediateWriteTarget k => .immediateWriteTarget k

/-- The numeric code of a fault, class and sub-kind; 0 where the class has no sub-kinds (R160). -/
def FaultCause.number : FaultCause → Nat × Nat
  | .fetch _ => (1, 1)
  | .immediateWriteTarget _ => (1, 2)
  | .slot _ _ => (1, 3)
  | .pointer _ _ => (1, 4)
  | .negativeWord _ => (2, 1)
  | .unknownOpcode _ _ => (2, 2)
  | .modeError _ _ _ => (3, 0)
  | .overflow _ _ _ => (4, 0)

/-! The system. -/

/-- The cores of the system, in order (R180). -/
def State.cores (s : State) : List CoreState := s.before ++ s.core :: s.after

/-- Make core `k` the active one; nothing else changes. -/
def State.focus (s : State) (k : Nat) : Option State :=
  match s.cores[k]? with
  | none => none
  | some c => some { s with before := s.cores.take k, core := c, after := s.cores.drop (k + 1) }

/-- A core's state after `Reset(IMAGE, START_POS, IN_Q, OUT_Q)` (R200). -/
def CoreState.reset (image : List Word) (startPos : Word) (inQ outQ : Nat) : CoreState :=
  { ip := startPos
    status := .running
    fault := none
    mem := Memory.ofImage image
    trace := []
    inQ := inQ
    outQ := outQ }

end Sys2Proof.Machine
end

