-- ==== Sys2Proof/Machine/Flags.lean ====
section
/-! DEFINITION. The machine has no flags (R14). What stands in their place: the range check of an exact result
(R102), the Words 0 and 1 a comparison writes (R14, R110, R111), and the test of a jump (R14, R120, R121). -/

namespace Sys2Proof.Machine

/-- The Word of an exact integer result, `none` when it lies outside `[WMIN, WMAX]` (R102). -/
def narrow (r : Int) : Option Word :=
  if wMin ≤ r ∧ r ≤ wMax then some (BitVec.ofInt 64 r) else none

/-- The exact sum (R100). -/
def sum (x y : Word) : Int := x.toInt + y.toInt

/-- The exact signed product (R101). -/
def product (x y : Word) : Int := x.toInt * y.toInt

/-- 1 when `x < y` as signed integers, else 0 (R110). -/
def lessResult (x y : Word) : Word := if x.toInt < y.toInt then 1 else 0

/-- 1 when `x` and `y` are the same integer, else 0 (R111). -/
def equalResult (x y : Word) : Word := if x.toInt = y.toInt then 1 else 0

/-- True for any non-zero Word, negative ones included (R120). -/
def nonZero (x : Word) : Bool := x.toInt ≠ 0

end Sys2Proof.Machine
end

