-- ==== Sys2Proof/Machine/Operands.lean ====
section
/-! DEFINITION. Operand resolution (R70 to R77): the two operand forms, write targets, and the left-to-right
resolution of each format's parameters. It reads memory and changes nothing. -/

namespace Sys2Proof.Machine

/-- A resolved operand (R8, R73, R74). -/
inductive Operand where
  /-- carries the index it was read from and the value stored there -/
  | reference (addr : Nat) (value : Word)
  /-- carries a literal value -/
  | immediate (value : Word)
  deriving DecidableEq, Repr

/-- The operand's value (R8). -/
def Operand.value : Operand → Word
  | .reference _ value => value
  | .immediate value => value

/-- The index of parameter `k`'s word, `ip + k` (R11, R50). -/
def CoreState.slot (c : CoreState) (k : Nat) : Int := c.ip.toInt + k

/-- Position mode (R73): the slot check, then the pointer check, then the value at the address the word names. -/
def resolvePosition (c : CoreState) (k : Nat) : Except FaultCause (Nat × Word) :=
  match c.mem.read (c.slot k) with
  | none => .error (.slot k (c.slot k))
  | some v =>
    match c.mem.read v.toInt with
    | none => .error (.pointer k v.toInt)
    | some x => .ok (v.toInt.toNat, x)

/-- Immediate mode (R74): the slot check, then the word itself. -/
def resolveImmediate (c : CoreState) (k : Nat) : Except FaultCause Word :=
  match c.mem.read (c.slot k) with
  | none => .error (.slot k (c.slot k))
  | some v => .ok v

/-- `Resolve(k)` with the parameter's mode (R72). -/
def resolve (c : CoreState) (k : Nat) : Mode → Except FaultCause Operand
  | .position =>
    match resolvePosition c k with
    | .error e => .error e
    | .ok (a, x) => .ok (.reference a x)
  | .immediate =>
    match resolveImmediate c k with
    | .error e => .error e
    | .ok v => .ok (.immediate v)

/-- A write target is resolved like any position-mode parameter; its old value is read and ignored (R76). -/
def resolveTarget (c : CoreState) (k : Nat) : Except FaultCause Nat :=
  match resolvePosition c k with
  | .error e => .error e
  | .ok (a, _) => .ok a

/-- The values of parameters 1 and 2, resolved left to right (R71). -/
def resolveF2 (c : CoreState) (a b : Mode) : Except FaultCause (Word × Word) :=
  match resolve c 1 a with
  | .error e => .error e
  | .ok p1 =>
    match resolve c 2 b with
    | .error e => .error e
    | .ok p2 => .ok (p1.value, p2.value)

/-- The values of parameters 1 and 2, then the address of the write target, parameter 3 (R71). -/
def resolveF3 (c : CoreState) (a b : Mode) : Except FaultCause (Word × Word × Nat) :=
  match resolveF2 c a b with
  | .error e => .error e
  | .ok (x, y) =>
    match resolveTarget c 3 with
    | .error e => .error e
    | .ok t => .ok (x, y, t)

end Sys2Proof.Machine
end

