-- ==== Sys2Proof/Machine/Arithmetic.lean ====
section
/-! DEFINITION. add and multiply (R100 to R102), and the shape they share with the comparisons: format F3. -/

namespace Sys2Proof.Machine

/-- An F3 instruction: resolve, compute, write the result through parameter 3, advance and trace (R86). A fault of
any of these leaves everything but the fault entry as it was. -/
def execF3 (m : Mnemonic) (compute : Word → Word → Except FaultCause Word) (a b : Mode) (surplus : Nat) (s : State) :
    Host.Outcome State Fault Refusal :=
  match resolveF3 s.core a b with
  | .error e => .next (s.raise e)
  | .ok (x, y, t) =>
    match compute x y with
    | .error e => .next (s.raise e)
    | .ok r => .next ((s.writeMem t r).retireNext m (modeF3 a b surplus))

/-- The exact result when it is a Word, else OverflowError with the opcode and the operands (R102, R161, R165). -/
def checked (m : Mnemonic) (exact : Word → Word → Int) (x y : Word) : Except FaultCause Word :=
  match narrow (exact x y) with
  | some r => .ok r
  | none => .error (.overflow m.code x y)

/-- `add` (R100). -/
def execAdd (a b : Mode) (surplus : Nat) (s : State) : Host.Outcome State Fault Refusal :=
  execF3 .add (checked .add sum) a b surplus s

/-- `multiply` (R101). -/
def execMultiply (a b : Mode) (surplus : Nat) (s : State) : Host.Outcome State Fault Refusal :=
  execF3 .multiply (checked .multiply product) a b surplus s

end Sys2Proof.Machine
end

