-- ==== Sys2Proof/Machine/Compare.lean ====
section
/-! DEFINITION. less-than and equals (R110 to R112): they cannot fault in execution. -/

namespace Sys2Proof.Machine

/-- `less-than` (R110). -/
def execLessThan (a b : Mode) (surplus : Nat) (s : State) : Host.Outcome State Fault Refusal :=
  execF3 .lessThan (fun x y => .ok (lessResult x y)) a b surplus s

/-- `equals` (R111). -/
def execEquals (a b : Mode) (surplus : Nat) (s : State) : Host.Outcome State Fault Refusal :=
  execF3 .equals (fun x y => .ok (equalResult x y)) a b surplus s

end Sys2Proof.Machine
end

