-- ==== Sys2Proof/Machine/Halt.lean ====
section
/-! DEFINITION. halt (R150). -/

namespace Sys2Proof.Machine

/-- `halt` (R150): the advance by 1, the trace record, then status Halted. -/
def execHalt (surplus : Nat) (s : State) : Host.Outcome State Fault Refusal :=
  .next (s.retireNext .halt surplus).setHalted

end Sys2Proof.Machine
end

