-- ==== Sys2Proof/Machine/InputOutput.lean ====
section
/-! DEFINITION. store (input) and output (R130 to R132). -/

namespace Sys2Proof.Machine

/-- `store` (R131): the target is resolved before the queue is looked at (R94); an empty queue holds (R93);
otherwise the pop and the write are one step. -/
def execStore (surplus : Nat) (s : State) : Host.Outcome State Fault Refusal :=
  match resolveTarget s.core 1 with
  | .error e => .next (s.raise e)
  | .ok t =>
    match s.inputQueue with
    | [] => .next s.hold
    | v :: _ => .next ((s.inPop.writeMem t v).retireNext .store (modeF1W surplus))

/-- `output` (R132): the push always succeeds (R143). -/
def execOutput (a : Mode) (surplus : Nat) (s : State) : Host.Outcome State Fault Refusal :=
  match resolve s.core 1 a with
  | .error e => .next (s.raise e)
  | .ok p => .next ((s.outPush p.value).retireNext .output (modeF1R a surplus))

end Sys2Proof.Machine
end

