-- ==== Sys2Proof/Machine/Jump.lean ====
section
/-! DEFINITION. jump-if-true and jump-if-false (R120 to R122). Both operands are resolved whether or not the jump
is taken; the target is absolute and not validated. -/

namespace Sys2Proof.Machine

/-- An F2 instruction: resolve, test, load the target or advance, and trace (R86). -/
def execF2 (m : Mnemonic) (taken : Word → Bool) (a b : Mode) (surplus : Nat) (s : State) :
    Host.Outcome State Fault Refusal :=
  match resolveF2 s.core a b with
  | .error e => .next (s.raise e)
  | .ok (x, target) =>
    if taken x then .next (s.retire m (modeF2 a b surplus) target)
    else .next (s.retireNext m (modeF2 a b surplus))

/-- `jump-if-true` (R120). -/
def execJumpIfTrue (a b : Mode) (surplus : Nat) (s : State) : Host.Outcome State Fault Refusal :=
  execF2 .jumpIfTrue nonZero a b surplus s

/-- `jump-if-false` (R121). -/
def execJumpIfFalse (a b : Mode) (surplus : Nat) (s : State) : Host.Outcome State Fault Refusal :=
  execF2 .jumpIfFalse (fun x => !nonZero x) a b surplus s

end Sys2Proof.Machine
end

