-- ==== Sys2Proof/Machine/Dispatch.lean ====
section
/-! DEFINITION. One arm per instruction: the execute phase and what follows it, on the active core (R86, R89). -/

namespace Sys2Proof.Machine

def exec (i : Instr) (s : State) : Host.Outcome State Fault Refusal :=
  match i with
  | .add a b surplus => Sys2Proof.Machine.execAdd a b surplus s
  | .multiply a b surplus => Sys2Proof.Machine.execMultiply a b surplus s
  | .store surplus => Sys2Proof.Machine.execStore surplus s
  | .output a surplus => Sys2Proof.Machine.execOutput a surplus s
  | .jumpIfTrue a b surplus => Sys2Proof.Machine.execJumpIfTrue a b surplus s
  | .jumpIfFalse a b surplus => Sys2Proof.Machine.execJumpIfFalse a b surplus s
  | .lessThan a b surplus => Sys2Proof.Machine.execLessThan a b surplus s
  | .equals a b surplus => Sys2Proof.Machine.execEquals a b surplus s
  | .halt surplus => Sys2Proof.Machine.execHalt surplus s

end Sys2Proof.Machine
end

