-- ==== Sys2Proof/Machine/Sequencer.lean ====
section
/-! DEFINITION. The step of one core (R86), the moves of the system (R181, R205), the blocked predicate (R94) and
the signals of R145. -/

namespace Sys2Proof.Machine

/-- One step of the active core (R86): Running is required; fetch, decode, then the instruction's meaning. A core
that is Halted or Faulted has no step (R9). Log entry 5. -/
def coreStep (s : State) : Host.Outcome State Fault Refusal :=
  match s.core.status with
  | .halted => .fault .coreHalted
  | .faulted => .fault .coreFaulted
  | .running =>
    match s.core.fetch with
    | .error cause => .next (s.raise cause)
    | .ok w =>
      match decode w with
      | .error e => .next (s.raise (decodeCause w e))
      | .ok i => exec i s

/-! The host's moves. -/

/-- Some core's output endpoint is bound to queue `q` (R182), whatever the core's status. Log entry 22. -/
def State.producesInto (s : State) (q : Nat) : Bool := s.cores.any fun c => c.outQ == q

/-- Some core's input endpoint is bound to queue `q` (R182). A Halted or Faulted core still counts as the consumer:
DESIGN CHOICE, log entry 22. -/
def State.consumesFrom (s : State) (q : Nat) : Bool := s.cores.any fun c => c.inQ == q

/-- The core has completed no instruction and has not stopped (R183, "before any core runs"). Log entry 9. -/
def CoreState.notStarted (c : CoreState) : Bool := c.status == .running && c.trace.isEmpty

/-- The host may push onto a queue that no core produces into (R205), and seed a core's input queue before any core
runs (R183). -/
def State.hostMayPush (s : State) (q : Nat) : Bool :=
  !s.producesInto q || (s.consumesFrom q && s.cores.all CoreState.notStarted)

/-- The wiring rule: no two cores share an input queue, no two share an output queue (R182). -/
abbrev State.wiringOk (s : State) : Prop :=
  (s.cores.map CoreState.inQ).Nodup ∧ (s.cores.map CoreState.outQ).Nodup

/-- The active core is a freshly reset one: accept it if the image and the wiring are legal (R4, R182, R200).
That the wiring is checked at every single reset and construction, against the bindings of all other cores as they then
stand, is a DESIGN CHOICE, log entry 23. -/
def install (s : State) (image : List Word) : Host.Outcome State Fault Refusal :=
  if Config.maxMemory < image.length then .refused .imageTooLong
  else if s.wiringOk then .next s
  else .refused .sharedQueueEnd

/-- One move of the system (R181, R205). Log entries 6, 8, 9, 10. That a core may be constructed also after other
cores have begun to run is a DESIGN CHOICE, log entry 21; that a stopped core's queue ends stay closed to the
host is another, log entry 22. -/
def applyMove (m : Move) (s : State) : Host.Outcome State Fault Refusal :=
  match m with
  | .coreStep k =>
    match s.focus k with
    | none => .refused .noSuchCore
    | some t => coreStep t
  | .hostPush q v => if s.hostMayPush q then .next (s.push q v) else .refused .hostInterference
  | .hostPop q => if s.consumesFrom q then .refused .hostInterference else .next (s.pop q)
  | .reset k image startPos inQ outQ =>
    match s.focus k with
    | none => .refused .noSuchCore
    | some t => install (t.setCore (CoreState.reset image startPos inQ outQ)) image
  | .construct image startPos inQ outQ =>
    install { s with before := s.cores, core := CoreState.reset image startPos inQ outQ, after := [] } image

/-! Predicates and signals, all computed from the state. -/

/-- The instruction the active core's next step would execute, if it is Running and fetch and decode succeed. -/
def State.nextInstr (s : State) : Option Instr :=
  match s.core.status with
  | .halted => none
  | .faulted => none
  | .running =>
    match s.core.fetch with
    | .error _ => none
    | .ok w =>
      match decode w with
      | .error _ => none
      | .ok i => some i

/-- The active core's next step is a store whose operand resolves (phases 1 to 3 of R86 pass). -/
def State.atStore (s : State) : Bool :=
  match s.nextInstr with
  | some (.store _) =>
    match resolveTarget s.core 1 with
    | .ok _ => true
    | .error _ => false
  | _ => false

/-- `Blocked(core)` (R94): a store whose fetch, decode and operand resolution pass, and an empty input queue. -/
def State.blocked (s : State) : Bool := s.atStore && s.inputQueue.isEmpty

/-- Signal `in_valid` (R145): the input queue is not empty. -/
def State.inValid (s : State) : Bool := !s.inputQueue.isEmpty

/-- Signal `in_data` (R145): the head element, meaningful only when `in_valid`. -/
def State.inData (s : State) : Option Word := s.inputQueue.head?

/-- Signal `in_pop` (R145): asserted by a store that completes. -/
def State.inPopSignal (s : State) : Bool := s.atStore && s.inValid

/-- Signals `out_push` and `out_data` (R145): the Word an output would push. -/
def State.outData (s : State) : Option Word :=
  match s.nextInstr with
  | some (.output a _) =>
    match resolve s.core 1 a with
    | .ok p => some p.value
    | .error _ => none
  | _ => none

/-- Signal `waiting` (R145): the blocked predicate. -/
def State.waiting (s : State) : Bool := s.blocked

/-- Signal `halted` (R145). -/
def State.haltedSignal (s : State) : Bool := s.core.status == .halted

/-- Signal `faulted` (R145). -/
def State.faultedSignal (s : State) : Bool := s.core.status == .faulted

/-! Placing an instruction for the host's `withFetchWord`. -/

/-- Where an instruction of four words can stand: at `ip` if that is inside the greatest memory, else at 0. -/
def CoreState.placeAt (c : CoreState) : Nat :=
  if 0 ≤ c.ip.toInt ∧ c.ip.toInt + 4 ≤ Config.maxMemory then c.ip.toInt.toNat else 0

/-- The memory with four Words from bit 0 of `w` on stored at `a`, made long enough to hold them. -/
def Memory.place (m : Memory) (a w : Nat) : Memory :=
  (((({ m with size := max m.size (a + 4) } : Memory).write a (BitVec.ofNat 64 w)).write (a + 1)
    (BitVec.ofNat 64 (w / 2 ^ 64))).write (a + 2) (BitVec.ofNat 64 (w / 2 ^ 128))).write (a + 3)
    (BitVec.ofNat 64 (w / 2 ^ 192))

end Sys2Proof.Machine
end

