-- ==== Sys2Proof/Machine/Step.lean ====
section
/-! DEFINITION. One step of the system: the next move of the agenda, or a step of the active core when the agenda
is empty (R181). -/

namespace Sys2Proof.Machine

/-- One step. -/
def step (s : State) : Host.Outcome State Fault Refusal :=
  match s.agenda with
  | [] => coreStep s
  | m :: rest => applyMove m { s with agenda := rest }

/-- The state whose very next step fetches and runs the instruction with bits `w`: its four cells stand at `ip`, the
memory is long enough, the active core is Running and the agenda is empty. Log entry 14. -/
def State.withFetchWord (s : State) (_nbits w : Nat) : State :=
  { s with
    core :=
      { s.core with
        ip := BitVec.ofNat 64 s.core.placeAt
        status := .running
        fault := none
        mem := s.core.mem.place s.core.placeAt w }
    agenda := [] }

end Sys2Proof.Machine
end

