-- ==== Sys2Proof/Safety.lean ====
section
/-! DEFINITION. The vocabulary of claims: what a parameter reads and where a target points, said from the rules and
not through `resolve`; fault entry as a whole state; the invariant; stopped, complete and deadlocked systems. -/

namespace Sys2Proof.Machine

/-! Operands, as R73, R74 and R76 say them. -/

/-- Parameter `k` in mode `d` has the value `x`: the parameter word itself in immediate mode (R74), the word at the
address it names in position mode (R73). -/
def CoreState.Reads (c : CoreState) (k : Nat) (d : Mode) (x : Word) : Prop :=
  match d with
  | .immediate => c.mem.read (c.ip.toInt + k) = some x
  | .position => ∃ v, c.mem.read (c.ip.toInt + k) = some v ∧ c.mem.read v.toInt = some x

/-- Parameter `k`, a write target, names the address `a` of memory (R76). -/
def CoreState.Targets (c : CoreState) (k a : Nat) : Prop :=
  ∃ v, c.mem.read (c.ip.toInt + k) = some v ∧ v.toInt = a ∧ a < c.mem.size

end Sys2Proof.Machine

namespace Sys2Proof

/-- The modes an instruction's parameters are resolved in, first parameter first; a write target is in position
mode (R58, R76). -/
def Instr.paramModes : Instr → List Mode
  | .add a b _ => [a, b, .position]
  | .multiply a b _ => [a, b, .position]
  | .store _ => [.position]
  | .output a _ => [a]
  | .jumpIfTrue a b _ => [a, b]
  | .jumpIfFalse a b _ => [a, b]
  | .lessThan a b _ => [a, b, .position]
  | .equals a b _ => [a, b, .position]
  | .halt _ => []

/-- The instruction is a jump whose test makes it taken (R120, R121). -/
def Instr.Taken (i : Instr) (c : Machine.CoreState) : Prop :=
  match i with
  | .jumpIfTrue a _ _ => ∃ x, c.Reads 1 a x ∧ x.toInt ≠ 0
  | .jumpIfFalse a _ _ => ∃ x, c.Reads 1 a x ∧ x.toInt = 0
  | _ => False

/-- The mode of a jump's target parameter. -/
def Instr.targetMode : Instr → Option Mode
  | .jumpIfTrue _ b _ => some b
  | .jumpIfFalse _ b _ => some b
  | _ => none

/-- The instruction has format F3: two read parameters and a write target (R57). -/
def Instr.isF3 : Instr → Bool
  | .add _ _ _ => true
  | .multiply _ _ _ => true
  | .lessThan _ _ _ => true
  | .equals _ _ _ => true
  | _ => false

end Sys2Proof

namespace Sys2Proof.Machine

/-! Fault entry, completion and stopped cores. -/

/-- `s` with the fault entered in its active core, written out as one state: only `status` and `fault` differ
(R170). -/
def State.faultedWith (s : State) (cause : FaultCause) : State :=
  { s with core := { s.core with status := .faulted, fault := some ⟨s.core.ip, cause⟩ } }

/-- What R160 says of when each fault is raised, with the record's class-specific fields as R161 says. `w` is the word
at `ip`, `k` a parameter of the instruction it selects. -/
def CoreState.Warrants (c : CoreState) (cause : FaultCause) : Prop :=
  match cause with
  | .fetch index => index = c.ip.toInt ∧ (index < 0 ∨ c.mem.size ≤ index)
  | .negativeWord w => c.mem.read c.ip.toInt = some w ∧ w.toInt < 0
  | .unknownOpcode w code =>
    c.mem.read c.ip.toInt = some w ∧ 0 ≤ w.toInt ∧ code = w.toInt.toNat % 100 ∧ ∀ m : Mnemonic, m.code ≠ code
  | .modeError k d w =>
    c.mem.read c.ip.toInt = some w ∧ 0 ≤ w.toInt ∧
      ∃ m : Mnemonic, m.code = w.toInt.toNat % 100 ∧ 1 ≤ k ∧ k ≤ m.params ∧ d = digit (w.toInt.toNat / 100) (k - 1) ∧
        2 ≤ d
  | .immediateWriteTarget k =>
    ∃ w, c.mem.read c.ip.toInt = some w ∧ 0 ≤ w.toInt ∧
      ∃ m : Mnemonic, m.code = w.toInt.toNat % 100 ∧ m.writeTarget = some k ∧ digit (w.toInt.toNat / 100) (k - 1) = 1
  | .slot k index =>
    ∃ w i, c.mem.read c.ip.toInt = some w ∧ decode w = .ok i ∧ 1 ≤ k ∧ k ≤ i.mnemonic.params ∧
      index = c.ip.toInt + k ∧ c.mem.size ≤ index
  | .pointer k index =>
    ∃ w i v, c.mem.read c.ip.toInt = some w ∧ decode w = .ok i ∧ 1 ≤ k ∧ i.paramModes[k - 1]? = some .position ∧
      c.mem.read (c.ip.toInt + k) = some v ∧ index = v.toInt ∧ (index < 0 ∨ c.mem.size ≤ index)
  | .overflow code x y =>
    ∃ w i a b n r, c.mem.read c.ip.toInt = some w ∧ decode w = .ok i ∧ c.Reads 1 a x ∧ c.Reads 2 b y ∧
      (r < wMin ∨ wMax < r) ∧
      ((i = .add a b n ∧ code = 1 ∧ r = x.toInt + y.toInt) ∨ (i = .multiply a b n ∧ code = 2 ∧ r = x.toInt * y.toInt))

/-- `t`'s trace is `s`'s with the one record of `i` appended, at the position `i` was fetched from (R22, R91). -/
def State.Logged (s t : State) (i : Instr) : Prop :=
  t.core.trace = s.core.trace ++ [⟨s.core.ip, i.mnemonic.code, i.modeWord, i.mnemonic⟩]

/-- From `s` to `t` exactly `popped` has left the head of the active core's input queue and exactly `pushed` has been
appended to its output queue; every other queue is as it was (R140, R141). -/
def State.QueueTraffic (s t : State) (popped pushed : List Word) : Prop :=
  ∀ q, s.queue q ++ (if q = s.core.outQ then pushed else []) = (if q = s.core.inQ then popped else []) ++ t.queue q

/-- Outside the active core's `ip`, `status`, `fault`, memory and trace, and outside the queues, nothing differs. -/
def State.SameSurroundings (s t : State) : Prop :=
  t.before = s.before ∧ t.after = s.after ∧ t.agenda = s.agenda ∧ t.core.inQ = s.core.inQ ∧
    t.core.outQ = s.core.outQ ∧ t.core.mem.size = s.core.mem.size

/-- The core is Halted or Faulted: its run has ended (R207). -/
def CoreState.stopped (c : CoreState) : Prop := c.status = .halted ∨ c.status = .faulted

/-- Every core is Halted: the system has completed (R183). -/
def State.complete (s : State) : Prop := ∀ c ∈ s.cores, c.status = .halted

/-- Every core that is not stopped is blocked: no step is enabled (R184). -/
def State.deadlocked (s : State) : Prop :=
  ∀ k t, s.focus k = some t → t.core.stopped ∨ t.blocked = true

/-- No core is Faulted: what a safe run keeps. -/
def State.noFault (s : State) : Prop := ∀ c ∈ s.cores, c.status ≠ .faulted

/-! The invariant. -/

/-- What every reachable core satisfies: a canonical memory of legal length; a fault record exactly when Faulted
(R16), with `pos` the `ip` (R170); each trace record carries its row's opcode number (R22); a halt record stands in
the trace exactly when the core is Halted, it is the last one, and `ip` is its position plus 1 (R92). -/
structure CoreState.Inv (c : CoreState) : Prop where
  memory : c.mem.wf
  faultRecord : c.status = .faulted ↔ c.fault ≠ none
  faultPos : ∀ f, c.fault = some f → f.pos = c.ip
  traceCode : ∀ r ∈ c.trace, r.code = r.mnemonic.code
  haltRecord : ∀ r ∈ c.trace, r.mnemonic = .halt → c.status = .halted
  haltLast : c.status = .halted →
    ∃ r, c.trace.getLast? = some r ∧ r.mnemonic = .halt ∧ c.ip.toInt = r.pos.toInt + 1

/-- What every reachable system satisfies: each core's invariant, canonical queues, the wiring rule (R182). -/
structure State.Inv (s : State) : Prop where
  cores : ∀ c ∈ s.cores, c.Inv
  queues : Sparse.wf [] s.queues
  wiring : s.wiringOk

end Sys2Proof.Machine
end

