-- ==== Sys2Proof/Certificates/Slice0/Obligations.lean ====
section
/-! DEFINITION. The statements for the provers, one definition each, in the order of OBLIGATIONS.json. -/

open Sys2Proof Sys2Proof.Machine

/-! Encoding and decoding. -/

/-- Words written out from the digit patterns of R57 decode to the instructions they stand for, one or more for each
format. -/
def Obligations.SpecWordsDecode : Prop :=
  decode 1 = .ok (.add .position .position 0) ∧
  decode 1101 = .ok (.add .immediate .immediate 0) ∧
  decode 1002 = .ok (.multiply .position .immediate 0) ∧
  decode 3 = .ok (.store 0) ∧
  decode 1003 = .ok (.store 1) ∧
  decode 20104 = .ok (.output .immediate 20) ∧
  decode 1105 = .ok (.jumpIfTrue .immediate .immediate 0) ∧
  decode 1006 = .ok (.jumpIfFalse .position .immediate 0) ∧
  decode 107 = .ok (.lessThan .immediate .position 0) ∧
  decode 8 = .ok (.equals .position .position 0) ∧
  decode 199 = .ok (.halt 1)

/-- R60, the whole classification of an instruction word, in the order the decoder applies it. -/
def Obligations.DecodeClassifiesEveryWord : Prop :=
  ∀ w : Word,
    (w.toInt < 0 → decode w = .error .negativeWord) ∧
    ∀ v : Nat, w.toInt = v →
      ((∀ m : Mnemonic, m.code ≠ v % 100) → decode w = .error (.unknownOpcode (v % 100))) ∧
      ∀ m : Mnemonic, m.code = v % 100 →
        (∀ k, 1 ≤ k → k ≤ m.params → 2 ≤ digit (v / 100) (k - 1) →
          (∀ j, 1 ≤ j → j < k → digit (v / 100) (j - 1) < 2) →
          decode w = .error (.modeError k (digit (v / 100) (k - 1)))) ∧
        ((∀ k, 1 ≤ k → k ≤ m.params → digit (v / 100) (k - 1) < 2) →
          (∀ k, m.writeTarget = some k → digit (v / 100) (k - 1) = 1 →
            decode w = .error (.immediateWriteTarget k)) ∧
          ((∀ k, m.writeTarget = some k → digit (v / 100) (k - 1) = 0) →
            ∃ i, decode w = .ok i ∧ i.mnemonic = m ∧ i.modeWord = v / 100))

/-- Decoding the word of a well-formed instruction gives the instruction back, with every mode and every surplus the
encoding admits. -/
def Obligations.DecodeEncodeRoundTrip : Prop :=
  ∀ i : Instr, i.wellFormed = true → decode (encode i) = .ok i

/-- A legal instruction word has one meaning: what it decodes to is well formed and encodes to that word. -/
def Obligations.EncodeDecodeRoundTrip : Prop :=
  ∀ (w : Word) (i : Instr), decode w = .ok i → i.wellFormed = true ∧ encode i = w

/-- R55: digits of the mode word above the instruction's last parameter are never examined. Two words that agree in
the opcode and in the mode digits of the parameters decode alike, whatever else they hold, and run alike; only the
trace record tells them apart, since it carries the whole mode word. -/
def Obligations.SurplusDigitsHaveNoEffect : Prop :=
  ∀ (w w' : Word) (i : Instr) (s : State), decode w = .ok i → 0 ≤ w'.toInt →
    w'.toInt.toNat % 10 ^ (2 + i.mnemonic.params) = w.toInt.toNat % 10 ^ (2 + i.mnemonic.params) →
    ∃ i' t u, decode w' = .ok i' ∧ i'.mnemonic = i.mnemonic ∧ exec i s = .next t ∧ exec i' s = .next u ∧
      u = { t with core := { t.core with trace := u.core.trace } } ∧
      (t.core.trace = s.core.trace ∧ u.core.trace = s.core.trace ∨
        s.Logged t i ∧ s.Logged u i' ∧ i'.modeWord = w'.toInt.toNat / 100)

/-! Operands and memory. -/

/-- R72, the resolution of one parameter. -/
def Obligations.ParameterResolution : Prop :=
  ∀ (c : CoreState) (k : Nat), 0 ≤ c.ip.toInt →
    (c.mem.size ≤ c.ip.toInt + k → ∀ d, resolve c k d = .error (.slot k (c.ip.toInt + k))) ∧
    (∀ v, c.ip.toInt + k < c.mem.size → c.mem.read (c.ip.toInt + k) = some v →
      resolve c k .immediate = .ok (.immediate v) ∧
      (v.toInt < 0 ∨ c.mem.size ≤ v.toInt → resolve c k .position = .error (.pointer k v.toInt)) ∧
      (0 ≤ v.toInt → v.toInt < c.mem.size →
        ∃ x, c.mem.read v.toInt = some x ∧ resolve c k .position = .ok (.reference v.toInt.toNat x)))

/-- R71 and R167 (6), R94: parameters are resolved left to right, the first that faults ends the step with its fault
and nothing else changes, and this comes before anything the instruction does (a store's look at its queue
included). -/
def Obligations.FirstFaultingParameterEndsTheStep : Prop :=
  ∀ (i : Instr) (s : State) (k : Nat) (d : Mode) (e : FaultCause),
    i.paramModes[k]? = some d →
    (∀ j d', j < k → i.paramModes[j]? = some d' → ∃ p, resolve s.core (j + 1) d' = .ok p) →
    resolve s.core (k + 1) d = .error e →
    exec i s = .next (s.faultedWith e)

/-- R32, R33: an index is readable exactly when it is in `0 .. N-1`. -/
def Obligations.IndexReadableExactlyInRange : Prop :=
  ∀ (m : Memory) (a : Int),
    (0 ≤ a ∧ a < m.size → ∃ v, m.read a = some v) ∧ (a < 0 ∨ m.size ≤ a → m.read a = none)

/-- R38: a write followed by a read of the same index returns the written value, every other index reads as before and
the length stays. That the canonical form is kept is about the model's own form of a memory, log entry 2. -/
def Obligations.ReadAfterWrite : Prop :=
  ∀ (m : Memory) (a : Nat) (v : Word), m.wf → a < m.size →
    (m.write a v).read a = some v ∧ (∀ b : Int, b ≠ a → (m.write a v).read b = m.read b) ∧
    (m.write a v).size = m.size ∧ (m.write a v).wf

/-- Two canonical memories that read alike at every index are the same data. (The form is the model's, log
entry 2.) -/
def Obligations.MemoriesThatReadAlikeAreEqual : Prop :=
  ∀ m n : Memory, m.wf → n.wf → m.size = n.size → (∀ a : Int, m.read a = n.read a) → m = n

/-! Results and completion of each instruction. -/

/-- R100, R102: add stores the exact sum when it is a Word; otherwise OverflowError, with nothing else changed. -/
def Obligations.AddStoresExactSumOrOverflows : Prop :=
  ∀ (a b : Mode) (n : Nat) (s : State) (x y : Word) (p : Nat),
    s.core.mem.wf → s.core.Reads 1 a x → s.core.Reads 2 b y → s.core.Targets 3 p →
    (wMin ≤ x.toInt + y.toInt ∧ x.toInt + y.toInt ≤ wMax →
      ∃ t r, exec (.add a b n) s = .next t ∧ t.core.mem.read p = some r ∧ r.toInt = x.toInt + y.toInt ∧
        t.core.ip.toInt = s.core.ip.toInt + 4 ∧ s.Logged t (.add a b n)) ∧
    (x.toInt + y.toInt < wMin ∨ wMax < x.toInt + y.toInt →
      exec (.add a b n) s = .next (s.faultedWith (.overflow 1 x y)))

/-- R101, R102: multiply stores the exact signed product when it is a Word; otherwise OverflowError. -/
def Obligations.MultiplyStoresExactProductOrOverflows : Prop :=
  ∀ (a b : Mode) (n : Nat) (s : State) (x y : Word) (p : Nat),
    s.core.mem.wf → s.core.Reads 1 a x → s.core.Reads 2 b y → s.core.Targets 3 p →
    (wMin ≤ x.toInt * y.toInt ∧ x.toInt * y.toInt ≤ wMax →
      ∃ t r, exec (.multiply a b n) s = .next t ∧ t.core.mem.read p = some r ∧ r.toInt = x.toInt * y.toInt ∧
        t.core.ip.toInt = s.core.ip.toInt + 4 ∧ s.Logged t (.multiply a b n)) ∧
    (x.toInt * y.toInt < wMin ∨ wMax < x.toInt * y.toInt →
      exec (.multiply a b n) s = .next (s.faultedWith (.overflow 2 x y)))

/-- R110: less-than stores 1 or 0, by the signed comparison, and never faults in execution. -/
def Obligations.LessThanStoresComparison : Prop :=
  ∀ (a b : Mode) (n : Nat) (s : State) (x y : Word) (p : Nat),
    s.core.mem.wf → s.core.Reads 1 a x → s.core.Reads 2 b y → s.core.Targets 3 p →
    ∃ t, exec (.lessThan a b n) s = .next t ∧
      (x.toInt < y.toInt → t.core.mem.read p = some 1) ∧ (y.toInt ≤ x.toInt → t.core.mem.read p = some 0) ∧
      t.core.ip.toInt = s.core.ip.toInt + 4 ∧ s.Logged t (.lessThan a b n)

/-- R111: equals stores 1 or 0, and never faults in execution. -/
def Obligations.EqualsStoresComparison : Prop :=
  ∀ (a b : Mode) (n : Nat) (s : State) (x y : Word) (p : Nat),
    s.core.mem.wf → s.core.Reads 1 a x → s.core.Reads 2 b y → s.core.Targets 3 p →
    ∃ t, exec (.equals a b n) s = .next t ∧
      (x.toInt = y.toInt → t.core.mem.read p = some 1) ∧ (x.toInt ≠ y.toInt → t.core.mem.read p = some 0) ∧
      t.core.ip.toInt = s.core.ip.toInt + 4 ∧ s.Logged t (.equals a b n)

/-- R131: a store with a value queued moves the head of the input queue into its target, in one step. -/
def Obligations.StoreMovesQueueHeadToTarget : Prop :=
  ∀ (n : Nat) (s : State) (p : Nat) (v : Word) (rest : List Word),
    s.core.mem.wf → Sparse.wf [] s.queues → s.core.Targets 1 p → s.queue s.core.inQ = v :: rest →
    ∃ t, exec (.store n) s = .next t ∧ t.core.mem.read p = some v ∧ t.queue s.core.inQ = rest ∧
      t.core.ip.toInt = s.core.ip.toInt + 2 ∧ s.Logged t (.store n)

/-- R93: a store whose target resolves and whose input queue is empty changes no state whatever. -/
def Obligations.StoreHoldsOnEmptyQueue : Prop :=
  ∀ (n : Nat) (s : State) (p : Nat), s.core.Targets 1 p → s.queue s.core.inQ = [] → exec (.store n) s = .next s

/-- R132: output appends its operand's value at the tail of the output queue. -/
def Obligations.OutputAppendsToOutputQueue : Prop :=
  ∀ (a : Mode) (n : Nat) (s : State) (x : Word),
    s.core.mem.wf → Sparse.wf [] s.queues → s.core.Reads 1 a x →
    ∃ t, exec (.output a n) s = .next t ∧ t.queue s.core.outQ = s.queue s.core.outQ ++ [x] ∧
      t.core.ip.toInt = s.core.ip.toInt + 2 ∧ s.Logged t (.output a n)

/-- R120: jump-if-true loads any target value when the tested value is not 0, and advances by 3 when it is 0. -/
def Obligations.JumpIfTrueBranches : Prop :=
  ∀ (a b : Mode) (n : Nat) (s : State) (x y : Word),
    s.core.mem.wf → s.core.Reads 1 a x → s.core.Reads 2 b y →
    ∃ t, exec (.jumpIfTrue a b n) s = .next t ∧ (x.toInt ≠ 0 → t.core.ip = y) ∧
      (x.toInt = 0 → t.core.ip.toInt = s.core.ip.toInt + 3) ∧ s.Logged t (.jumpIfTrue a b n)

/-- R121: jump-if-false loads any target value when the tested value is 0, and advances by 3 when it is not. -/
def Obligations.JumpIfFalseBranches : Prop :=
  ∀ (a b : Mode) (n : Nat) (s : State) (x y : Word),
    s.core.mem.wf → s.core.Reads 1 a x → s.core.Reads 2 b y →
    ∃ t, exec (.jumpIfFalse a b n) s = .next t ∧ (x.toInt = 0 → t.core.ip = y) ∧
      (x.toInt ≠ 0 → t.core.ip.toInt = s.core.ip.toInt + 3) ∧ s.Logged t (.jumpIfFalse a b n)

/-- R150: halt advances by 1, is traced, and makes the core Halted, in the last cell of memory too. -/
def Obligations.HaltStopsTheCore : Prop :=
  ∀ (n : Nat) (s : State), s.core.mem.wf → s.core.mem.valid s.core.ip.toInt →
    ∃ t, exec (.halt n) s = .next t ∧ t.core.status = .halted ∧ t.core.ip.toInt = s.core.ip.toInt + 1 ∧
      s.Logged t (.halt n)

/-! Frames. -/

/-- add, multiply, less-than and equals leave everything but the target's cell, `ip` and the trace as it was; when
they fault, everything but the fault entry. -/
def Obligations.ComputingInstructionsFrame : Prop :=
  ∀ (i : Instr) (s t : State), i.isF3 = true → exec i s = .next t →
    (∃ e, t = s.faultedWith e) ∨
      (s.SameSurroundings t ∧ t.queues = s.queues ∧ t.core.status = s.core.status ∧ t.core.fault = s.core.fault ∧
        s.Logged t i ∧
        ∀ p, resolveTarget s.core 3 = .ok p → ∀ a : Int, a ≠ p → t.core.mem.read a = s.core.mem.read a)

/-- store leaves everything but the target's cell, the input queue, `ip` and the trace as it was; a hold leaves
everything, a fault everything but the fault entry. -/
def Obligations.StoreFrame : Prop :=
  ∀ (n : Nat) (s t : State), exec (.store n) s = .next t →
    (∃ e, t = s.faultedWith e) ∨ (t = s ∧ s.queue s.core.inQ = []) ∨
      (s.SameSurroundings t ∧ t.core.status = s.core.status ∧ t.core.fault = s.core.fault ∧ s.Logged t (.store n) ∧
        (∀ q, q ≠ s.core.inQ → t.queue q = s.queue q) ∧
        ∀ p, resolveTarget s.core 1 = .ok p → ∀ a : Int, a ≠ p → t.core.mem.read a = s.core.mem.read a)

/-- output, the jumps and halt store nothing: all of memory stays. output touches its output queue alone, the others
no queue; halt alone touches the status. -/
def Obligations.OutputJumpHaltFrame : Prop :=
  ∀ (i : Instr) (s t : State), i.isF3 = false → (∀ n, i ≠ .store n) → exec i s = .next t →
    (∃ e, t = s.faultedWith e) ∨
      (s.SameSurroundings t ∧ t.core.mem = s.core.mem ∧ t.core.fault = s.core.fault ∧ s.Logged t i ∧
        ((∀ n, i ≠ .halt n) → t.core.status = s.core.status) ∧
        ((∀ a n, i ≠ .output a n) → t.queues = s.queues) ∧ ∀ q, q ≠ s.core.outQ → t.queue q = s.queue q)

/-! The step. -/

/-- R86: when the word at `ip` decodes to an instruction, the step of a Running active core is that instruction's
meaning, with nothing around it. With an empty agenda the system's step is the active core's (log entry 6). -/
def Obligations.StepRunsTheDecodedInstruction : Prop :=
  ∀ s : State, s.agenda = [] → step s = coreStep s ∧
    ∀ (w : Word) (i : Instr), s.core.status = .running → s.core.mem.read s.core.ip.toInt = some w →
      decode w = .ok i → step s = exec i s

/-- R181: a scheduled step of core `k` takes the move off the agenda, makes core `k` the active one and is that
core's step. (The agenda is the model's own form of the interleaving, log entry 6.) -/
def Obligations.ScheduledStepIsThatCoresStep : Prop :=
  ∀ (s : State) (k : Nat) (rest : List Move) (c : CoreState),
    s.agenda = .coreStep k :: rest → s.cores[k]? = some c →
    ∃ t, step s = coreStep t ∧ t.cores = s.cores ∧ t.before.length = k ∧ t.core = c ∧ t.queues = s.queues ∧
      t.agenda = rest

/-- R34, R87: an `ip` outside `0 .. N-1` raises AddressError Fetch with that index, and nothing else happens. -/
def Obligations.FetchOutsideMemoryFaults : Prop :=
  ∀ s : State, s.core.status = .running → s.core.ip.toInt < 0 ∨ (s.core.mem.size : Int) ≤ s.core.ip.toInt →
    coreStep s = .next (s.faultedWith (.fetch s.core.ip.toInt))

/-- R88, R161: each decode fault is raised from the instruction word alone, with its class-specific record. -/
def Obligations.DecodeFaultsAreRecorded : Prop :=
  ∀ (s : State) (w : Word), s.core.status = .running → s.core.mem.read s.core.ip.toInt = some w →
    (decode w = .error .negativeWord → coreStep s = .next (s.faultedWith (.negativeWord w))) ∧
    (∀ code, decode w = .error (.unknownOpcode code) → coreStep s = .next (s.faultedWith (.unknownOpcode w code))) ∧
    (∀ k d, decode w = .error (.modeError k d) → coreStep s = .next (s.faultedWith (.modeError k d w))) ∧
    (∀ k, decode w = .error (.immediateWriteTarget k) → coreStep s = .next (s.faultedWith (.immediateWriteTarget k)))

/-- R170, with R160 and R161: whenever a step of a core leaves it Faulted, the fault entry is all that happened: the
status, and a record whose `pos` is `ip` and whose cause is one that the state warrants; memory, queues, trace, `ip`
and the other cores are as before. -/
def Obligations.FaultEntryChangesNothingElse : Prop :=
  ∀ s t : State, coreStep s = .next t → t.core.status = .faulted →
    ∃ e, s.core.Warrants e ∧ t = s.faultedWith e

/-- R12: `ip` after a core's step. A fault or a hold leaves it; a taken jump loads its target's value; every other
completed instruction advances it by 1 plus its parameter count, exactly. -/
def Obligations.HowIpChanges : Prop :=
  ∀ (s t : State), s.core.mem.wf → coreStep s = .next t →
    (t = s ∨ t.core.status = .faulted → t.core.ip = s.core.ip) ∧
    (t ≠ s → t.core.status ≠ .faulted →
      ∃ w i, s.core.mem.read s.core.ip.toInt = some w ∧ decode w = .ok i ∧
        (i.Taken s.core → ∃ b, i.targetMode = some b ∧ s.core.Reads 2 b t.core.ip) ∧
        (¬ i.Taken s.core → t.core.ip.toInt = s.core.ip.toInt + 1 + i.mnemonic.params))

/-- R91: a core's step either faults or holds, and appends nothing, or completes, and appends the one record of the
instruction that was fetched. -/
def Obligations.OneTraceRecordPerCompletedStep : Prop :=
  ∀ s t : State, coreStep s = .next t →
    (t.core.trace = s.core.trace ∧ (t = s ∨ t.core.status = .faulted)) ∨
      ∃ w i, s.core.mem.read s.core.ip.toInt = some w ∧ decode w = .ok i ∧ t.core.status ≠ .faulted ∧
        t.core.trace = s.core.trace ++
          [⟨s.core.ip, w.toInt.toNat % 100, w.toInt.toNat / 100, i.mnemonic⟩]

/-- R15: a step starts Running; it ends Halted exactly when the instruction was a halt. -/
def Obligations.OnlyHaltHalts : Prop :=
  ∀ s t : State, coreStep s = .next t →
    s.core.status = .running ∧
      (t.core.status = .halted ↔
        ∃ w n, s.core.mem.read s.core.ip.toInt = some w ∧ decode w = .ok (.halt n))

/-- R94: the blocked predicate. A store whose decode or operand resolution faults never blocks: it faults at once,
whatever its queue holds. -/
def Obligations.BlockedMeansStoreOnEmptyQueue : Prop :=
  ∀ s : State,
    (s.blocked = true ↔
      s.core.status = .running ∧
        (∃ w n, s.core.mem.read s.core.ip.toInt = some w ∧ decode w = .ok (.store n)) ∧
        (∃ p, s.core.Targets 1 p) ∧ s.queue s.core.inQ = []) ∧
    ∀ w, s.core.status = .running → s.core.mem.read s.core.ip.toInt = some w →
      (∀ e, decode w = .error e → s.blocked = false ∧ coreStep s = .next (s.faultedWith (decodeCause w e))) ∧
      ∀ n e, decode w = .ok (.store n) → resolve s.core 1 .position = .error e →
        s.blocked = false ∧ coreStep s = .next (s.faultedWith e)

/-- R93, R191: a core's step leaves the whole state as it was exactly when the core is blocked. (That the model shows
a hold as a next state equal to the old one is log entry 4.) -/
def Obligations.StepChangesNothingExactlyWhenBlocked : Prop :=
  ∀ s : State, coreStep s = .next s ↔ s.blocked = true

/-- R9, R151, R171: a Halted or Faulted core has no step, be it the active core or one the agenda names. (The named
stop is the model's form, log entry 5.) -/
def Obligations.StoppedCoreHasNoStep : Prop :=
  ∀ s : State,
    (s.agenda = [] → s.core.status = .halted → step s = .fault .coreHalted) ∧
    (s.agenda = [] → s.core.status = .faulted → step s = .fault .coreFaulted) ∧
    ∀ k rest c, s.agenda = .coreStep k :: rest → s.cores[k]? = some c →
      (c.status = .halted → step s = .fault .coreHalted) ∧ (c.status = .faulted → step s = .fault .coreFaulted)

/-- R151, R171, R185: a stopped core stays exactly as it is through every step of the system but its own reset. -/
def Obligations.OnlyResetRevivesAStoppedCore : Prop :=
  ∀ (s t : State) (k : Nat) (c : CoreState), s.cores[k]? = some c → c.stopped → step s = .next t →
    (∀ image startPos inQ outQ, s.agenda.head? ≠ some (.reset k image startPos inQ outQ)) →
    t.cores[k]? = some c

/-- R185, with R183: once a member is Faulted, no step but a reset makes the system fault-free again, and the system
never completes. -/
def Obligations.FaultedMemberPreventsCompletion : Prop :=
  ∀ s t : State, ¬ s.noFault → step s = .next t →
    (∀ k image startPos inQ outQ, s.agenda.head? ≠ some (.reset k image startPos inQ outQ)) →
    ¬ t.noFault ∧ ¬ t.complete

/-- R95: what a core's step does depends on its `ip` and memory and on the head of its input queue alone: the new `ip`,
memory, status, fault record and trace records, and what it pops and pushes. -/
def Obligations.StepDependsOnIpMemoryAndQueueHead : Prop :=
  ∀ s t : State, s.core.status = .running → t.core.status = .running → s.core.ip = t.core.ip →
    s.core.mem = t.core.mem → (s.queue s.core.inQ).head? = (t.queue t.core.inQ).head? →
    s.outData = t.outData ∧ s.inPopSignal = t.inPopSignal ∧
    ∃ s' t', coreStep s = .next s' ∧ coreStep t = .next t' ∧ s'.core.ip = t'.core.ip ∧ s'.core.mem = t'.core.mem ∧
      s'.core.status = t'.core.status ∧ (s'.core.status = .faulted → s'.core.fault = t'.core.fault) ∧
      (∃ more, s'.core.trace = s.core.trace ++ more ∧ t'.core.trace = t.core.trace ++ more) ∧
      ∃ popped pushed, (Sparse.wf [] s.queues → s.QueueTraffic s' popped pushed) ∧
        (Sparse.wf [] t.queues → t.QueueTraffic t' popped pushed)

/-- R44: the word a store writes just behind itself is the word fetched next. -/
def Obligations.StoredWordIsFetchedNext : Prop :=
  ∀ (n : Nat) (s : State) (p : Nat) (v : Word) (rest : List Word),
    s.core.mem.wf → s.core.Targets 1 p → s.queue s.core.inQ = v :: rest → (p : Int) = s.core.ip.toInt + 2 →
    ∃ t, exec (.store n) s = .next t ∧ t.core.fetch = .ok v

/-- R122 (e): a taken jump of either kind to a target outside memory completes and is traced, and the next step raises
AddressError Fetch with the target as the index. -/
def Obligations.BadJumpTargetFaultsAtNextFetch : Prop :=
  ∀ (a b : Mode) (n : Nat) (s : State) (x y : Word),
    s.agenda = [] → s.core.status = .running → s.core.Reads 1 a x → s.core.Reads 2 b y →
    y.toInt < 0 ∨ (s.core.mem.size : Int) ≤ y.toInt →
    (x.toInt ≠ 0 →
      ∃ t, exec (.jumpIfTrue a b n) s = .next t ∧ s.Logged t (.jumpIfTrue a b n) ∧ t.core.ip = y ∧
        step t = .next (t.faultedWith (.fetch y.toInt))) ∧
    (x.toInt = 0 →
      ∃ t, exec (.jumpIfFalse a b n) s = .next t ∧ s.Logged t (.jumpIfFalse a b n) ∧ t.core.ip = y ∧
        step t = .next (t.faultedWith (.fetch y.toInt)))

/-! Queues and the system. -/

/-- R140, R141: through a core's step every queue keeps its order and drops nothing: at most its head has gone, only
from the core's own input queue, and at most one value has been appended, only to its own output queue. -/
def Obligations.QueuesAreFifo : Prop :=
  ∀ s t : State, Sparse.wf [] s.queues → coreStep s = .next t → ∀ q, ∃ popped pushed : List Word,
    s.queue q ++ pushed = popped ++ t.queue q ∧ popped.length ≤ 1 ∧ pushed.length ≤ 1 ∧
      (popped ≠ [] → q = s.core.inQ) ∧ (pushed ≠ [] → q = s.core.outQ)

/-- R145, the queue signals: `in_pop` is asserted exactly by the step that removes the head `in_data`, `out_push` with
`out_data` by the step that appends it, and a step with neither leaves every queue. -/
def Obligations.SignalsTellTheQueueTraffic : Prop :=
  ∀ s t : State, Sparse.wf [] s.queues → coreStep s = .next t →
    (s.inPopSignal = true →
      ∃ v, s.inData = some v ∧ s.queue s.core.inQ = v :: t.queue s.core.inQ ∧ s.waiting = false) ∧
    (∀ v, s.outData = some v → t.queue s.core.outQ = s.queue s.core.outQ ++ [v]) ∧
    (s.inPopSignal = false → s.outData = none → t.queues = s.queues)

/-- R180: a step of core `k` touches no other core; the stepped core keeps its memory length and its bindings (R19,
R130). (The agenda is the model's form, log entry 6.) -/
def Obligations.StepTouchesOnlyItsCore : Prop :=
  ∀ (s t : State) (k : Nat) (rest : List Move) (c : CoreState),
    s.agenda = .coreStep k :: rest → s.cores[k]? = some c → step s = .next t →
    t.agenda = rest ∧ t.cores.length = s.cores.length ∧ (∀ j, j ≠ k → t.cores[j]? = s.cores[j]?) ∧
      ∃ d, t.cores[k]? = some d ∧ d.mem.size = c.mem.size ∧ d.inQ = c.inQ ∧ d.outQ = c.outQ

/-- R184: in a deadlocked system no core's step changes a core or a queue. -/
def Obligations.DeadlockIsForEver : Prop :=
  ∀ (s t : State) (k : Nat), s.deadlocked → applyMove (.coreStep k) s = .next t →
    t.cores = s.cores ∧ t.queues = s.queues

/-- R186, derived from R86, R140, R182: steps of two different cores that do not hold may be taken in either order,
with the same cores and queues at the end. -/
def Obligations.StepsOfDifferentCoresCommute : Prop :=
  ∀ (s si sj ti tj : State) (i j : Nat), s.Inv → i ≠ j → s.focus i = some ti → s.focus j = some tj →
    ti.blocked = false → tj.blocked = false →
    applyMove (.coreStep i) s = .next si → applyMove (.coreStep j) s = .next sj →
    ∃ u v, applyMove (.coreStep j) si = .next u ∧ applyMove (.coreStep i) sj = .next v ∧
      u.cores = v.cores ∧ u.queues = v.queues

/-- R200, R201, R202: Reset of core `k`, whatever its status: `N`, memory, `ip`, status, fault, trace and bindings are
the reset's, and neither the queues nor the other cores are touched. (The move's form is the model's, log entry 6.) -/
def Obligations.ResetLoadsTheCore : Prop :=
  ∀ (s : State) (k : Nat) (image : List Word) (startPos : Word) (inQ outQ : Nat) (rest : List Move) (c : CoreState),
    s.agenda = .reset k image startPos inQ outQ :: rest → s.cores[k]? = some c →
    image.length ≤ Config.maxMemory → s.wiringOk →
    (∀ j d, j ≠ k → s.cores[j]? = some d → d.inQ ≠ inQ ∧ d.outQ ≠ outQ) →
    ∃ t d, step s = .next t ∧ t.cores[k]? = some d ∧ d.ip = startPos ∧ d.status = .running ∧ d.fault = none ∧
      d.trace = [] ∧ d.inQ = inQ ∧ d.outQ = outQ ∧ d.mem.size = image.length ∧
      (∀ a : Nat, d.mem.read a = image[a]?) ∧ t.queues = s.queues ∧ (∀ j, j ≠ k → t.cores[j]? = s.cores[j]?) ∧
      t.agenda = rest

/-- R180, R202: constructing a core adds one, in its reset state, behind the others. (The move's form is the
model's, log entry 6, as is that it may come after other cores have run, log entry 21.) -/
def Obligations.ConstructAddsACore : Prop :=
  ∀ (s : State) (image : List Word) (startPos : Word) (inQ outQ : Nat) (rest : List Move),
    s.agenda = .construct image startPos inQ outQ :: rest → image.length ≤ Config.maxMemory → s.wiringOk →
    (∀ d ∈ s.cores, d.inQ ≠ inQ ∧ d.outQ ≠ outQ) →
    ∃ t d, step s = .next t ∧ t.cores = s.cores ++ [d] ∧ d.ip = startPos ∧ d.status = .running ∧ d.fault = none ∧
      d.trace = [] ∧ d.inQ = inQ ∧ d.outQ = outQ ∧ (∀ a : Nat, d.mem.read a = image[a]?) ∧ t.queues = s.queues ∧
      t.agenda = rest

/-- R182: a construction, or a reset of a core, that would give a queue two producers or two consumers is refused.
(Log entry 10; that the wiring is checked at each such move by itself is the model's choice, log entry 23.) -/
def Obligations.SharedQueueEndIsRefused : Prop :=
  ∀ (s : State) (image : List Word) (startPos : Word) (inQ outQ : Nat) (rest : List Move) (j : Nat) (d : CoreState),
    image.length ≤ Config.maxMemory → s.cores[j]? = some d → d.inQ = inQ ∨ d.outQ = outQ →
    (s.agenda = .construct image startPos inQ outQ :: rest → step s = .refused .sharedQueueEnd) ∧
    (∀ k c, k ≠ j → s.cores[k]? = some c → s.agenda = .reset k image startPos inQ outQ :: rest →
      step s = .refused .sharedQueueEnd)

/-- R147, R205: the host's push onto a queue no core produces into is appended at the tail, its pop from a queue no
core consumes removes the head, and neither touches anything else; on a queue end a core drives, a pop is always
refused, and a push is refused once some core has run or stopped, or when no core consumes the queue (else it is the
seeding of R183). (Log entries 8, 9 and 10; that a stopped core still drives its queue ends, 22; the moves' form, 6.) -/
def Obligations.HostPushesAndPops : Prop :=
  ∀ (s : State) (q : Nat) (v : Word) (rest : List Move), Sparse.wf [] s.queues →
    (s.agenda = .hostPush q v :: rest → (∀ c ∈ s.cores, c.outQ ≠ q) →
      ∃ t, step s = .next t ∧ t.queue q = s.queue q ++ [v] ∧ (∀ p, p ≠ q → t.queue p = s.queue p) ∧
        t.cores = s.cores ∧ t.agenda = rest) ∧
    (s.agenda = .hostPush q v :: rest → (∃ c ∈ s.cores, c.outQ = q) →
      ((∃ c ∈ s.cores, c.status ≠ .running ∨ c.trace ≠ []) ∨ ∀ c ∈ s.cores, c.inQ ≠ q) →
      step s = .refused .hostInterference) ∧
    (s.agenda = .hostPop q :: rest → (∀ c ∈ s.cores, c.inQ ≠ q) →
      ∃ t, step s = .next t ∧ t.queue q = (s.queue q).tail ∧ (∀ p, p ≠ q → t.queue p = s.queue p) ∧
        t.cores = s.cores ∧ t.agenda = rest) ∧
    (s.agenda = .hostPop q :: rest → (∃ c ∈ s.cores, c.inQ = q) → step s = .refused .hostInterference)

/-- R183: before any core runs, the host may seed each core's input queue, one that a core produces into included. (What
`before any core runs` means is log entry 9.) -/
def Obligations.SeedingBeforeAnyCoreRuns : Prop :=
  ∀ (s : State) (q : Nat) (v : Word) (rest : List Move), Sparse.wf [] s.queues → s.agenda = .hostPush q v :: rest →
    (∃ c ∈ s.cores, c.inQ = q) → (∀ c ∈ s.cores, c.status = .running ∧ c.trace = []) →
    ∃ t, step s = .next t ∧ t.queue q = s.queue q ++ [v] ∧ (∀ p, p ≠ q → t.queue p = s.queue p) ∧
      t.cores = s.cores ∧ t.agenda = rest

/-! Reset and the invariant. -/

/-- R23: what reset leaves: `ip` at the default start position, Running, no fault, an empty trace. (That the image is
empty and the queues are 0 and 1, both empty, is the model's choice, log entries 3 and 7.) -/
def Obligations.ResetState : Prop :=
  State.reset.core.ip.toInt = 0 ∧ State.reset.core.status = .running ∧ State.reset.core.fault = none ∧
    State.reset.core.trace = []

/-- The invariant holds of the model's reset state. (That state, one core with an empty image and queues 0 and 1, is the
model's choice, log entry 3; the canonical forms of the invariant are the model's, log entries 2 and 7.) -/
def Obligations.InvariantHoldsAtReset : Prop := State.reset.Inv

/-- Every step of the system, whatever the agenda says, keeps the invariant: canonical memories of legal length, a
fault record exactly in the Faulted state and at its `ip`, halt records exactly at the end of Halted cores' traces,
canonical queues, and the wiring rule. (The canonical forms are the model's, log entries 2 and 7, as is the form of the
moves, log entry 6.) -/
def Obligations.EveryStepKeepsTheInvariant : Prop :=
  ∀ s t : State, s.Inv → step s = .next t → t.Inv
end

