-- ==== Sys2Proof/Laws/Sparse.lean ====
section
/-! SUPPORT. The laws of the sparse store: read after write, other places untouched, the canonical form kept, and
canonical stores with equal reads are equal. -/

namespace Sys2Proof.Machine

variable {α : Type} {d : α}

theorem Sparse.get_of_lt {l : List (Nat × α)} {a : Nat} (h : ∀ e ∈ l, a < e.1) : Sparse.get d l a = d := by
  induction l with
  | nil => rfl
  | cons e l ih =>
    obtain ⟨k, x⟩ := e
    have hk : a < k := h (k, x) (by simp)
    rw [Sparse.get, if_neg (by omega)]
    exact ih fun e he => h e (by simp [he])

theorem Sparse.wf_nil : Sparse.wf d ([] : List (Nat × α)) := by simp [Sparse.wf]

theorem Sparse.wf_cons {k : Nat} {x : α} {l : List (Nat × α)} :
    Sparse.wf d ((k, x) :: l) ↔ (∀ e ∈ l, k < e.1) ∧ x ≠ d ∧ Sparse.wf d l := by
  simp only [Sparse.wf, List.pairwise_cons, List.mem_cons, forall_eq_or_imp]
  tauto

/-- Canonical stores that read alike are equal data. -/
theorem Sparse.ext_of_get {l m : List (Nat × α)} (hl : Sparse.wf d l) (hm : Sparse.wf d m)
    (h : ∀ a, Sparse.get d l a = Sparse.get d m a) : l = m := by
  induction l generalizing m with
  | nil =>
    cases m with
    | nil => rfl
    | cons f m =>
      obtain ⟨_, hx, _⟩ := Sparse.wf_cons.1 hm
      exact absurd (by simpa [Sparse.get] using (h f.1).symm) hx
  | cons e l ih =>
    obtain ⟨k, x⟩ := e
    obtain ⟨hk, hx, hl'⟩ := Sparse.wf_cons.1 hl
    cases m with
    | nil => exact absurd (by simpa [Sparse.get] using h k) hx
    | cons f m =>
      obtain ⟨j, y⟩ := f
      obtain ⟨hj, hy, hm'⟩ := Sparse.wf_cons.1 hm
      have key : k = j := by
        rcases Nat.lt_trichotomy k j with hlt | heq | hgt
        · have h1 := h k
          rw [Sparse.get, if_pos rfl,
            Sparse.get_of_lt (by simpa using ⟨hlt, fun _ _ he => lt_trans hlt (hj _ he)⟩)] at h1
          exact absurd h1 hx
        · exact heq
        · have h1 := h j
          rw [Sparse.get_of_lt (l := (k, x) :: l) (by simpa using ⟨hgt, fun _ _ he => lt_trans hgt (hk _ he)⟩),
            Sparse.get, if_pos rfl] at h1
          exact absurd h1.symm hy
      subst key
      have hxy : x = y := by simpa [Sparse.get] using h k
      subst hxy
      congr 1
      refine ih hl' hm' fun a => ?_
      by_cases ha : k = a
      · subst ha; rw [Sparse.get_of_lt hk, Sparse.get_of_lt hj]
      · simpa [Sparse.get, ha] using h a

variable [DecidableEq α]

theorem Sparse.get_put_same {l : List (Nat × α)} (h : Sparse.wf d l) (a : Nat) (v : α) :
    Sparse.get d (Sparse.put d a v l) a = v := by
  induction l with
  | nil => by_cases hv : v = d <;> simp [Sparse.put, Sparse.get, hv]
  | cons e l ih =>
    obtain ⟨k, x⟩ := e
    obtain ⟨hk, hx, hl⟩ := Sparse.wf_cons.1 h
    rw [Sparse.put]
    split_ifs with h1 h2 h3 h4
    · rw [h2]
      exact Sparse.get_of_lt (by simpa using ⟨h1, fun _ _ he => lt_trans h1 (hk _ he)⟩)
    · simp [Sparse.get]
    · rw [h4]
      exact Sparse.get_of_lt (by rw [h3]; exact hk)
    · simp [Sparse.get]
    · rw [Sparse.get, if_neg (by omega)]
      exact ih hl

theorem Sparse.get_put_ne {a b : Nat} (hab : b ≠ a) (v : α) (l : List (Nat × α)) :
    Sparse.get d (Sparse.put d a v l) b = Sparse.get d l b := by
  induction l with
  | nil => by_cases hv : v = d <;> simp [Sparse.put, Sparse.get, hv, hab.symm]
  | cons e l ih =>
    obtain ⟨k, x⟩ := e
    rw [Sparse.put]
    split_ifs with h1 h2 h3 h4
    · rfl
    · simp [Sparse.get, hab.symm]
    · simp [Sparse.get, ← h3, hab.symm]
    · simp [Sparse.get, ← h3, hab.symm]
    · simp [Sparse.get, ih]

theorem Sparse.mem_put {a : Nat} {v : α} {l : List (Nat × α)} {e : Nat × α} (h : e ∈ Sparse.put d a v l) :
    e ∈ l ∨ e = (a, v) := by
  induction l with
  | nil =>
    rw [Sparse.put] at h
    split_ifs at h <;> simp_all
  | cons f l ih =>
    obtain ⟨k, x⟩ := f
    rw [Sparse.put] at h
    split_ifs at h
    all_goals simp only [List.mem_cons] at h ⊢
    all_goals tauto

theorem Sparse.put_wf {l : List (Nat × α)} (h : Sparse.wf d l) (a : Nat) (v : α) :
    Sparse.wf d (Sparse.put d a v l) := by
  induction l with
  | nil =>
    rw [Sparse.put]
    split_ifs with hv
    · exact h
    · exact Sparse.wf_cons.2 ⟨by simp, hv, h⟩
  | cons e l ih =>
    obtain ⟨k, x⟩ := e
    obtain ⟨hk, hx, hl⟩ := Sparse.wf_cons.1 h
    rw [Sparse.put]
    split_ifs with h1 h2 h3 h4
    · exact h
    · exact Sparse.wf_cons.2 ⟨by simpa using ⟨h1, fun _ _ he => lt_trans h1 (hk _ he)⟩, h2, h⟩
    · exact hl
    · exact Sparse.wf_cons.2 ⟨by rw [h3]; exact hk, h4, hl⟩
    · refine Sparse.wf_cons.2 ⟨fun e he => ?_, hx, ih hl⟩
      rcases Sparse.mem_put he with he | rfl
      · exact hk e he
      · show k < a; omega

theorem Sparse.mem_ofList {i : Nat} {xs : List α} {e : Nat × α} (h : e ∈ Sparse.ofList d i xs) :
    i ≤ e.1 ∧ e.1 < i + xs.length := by
  induction xs generalizing i with
  | nil => simp [Sparse.ofList] at h
  | cons x xs ih =>
    rw [Sparse.ofList] at h
    simp only [List.length_cons]
    split_ifs at h
    · have := ih h; omega
    · rcases List.mem_cons.1 h with rfl | h
      · exact ⟨le_refl _, by show i < _; omega⟩
      · have := ih h; omega

theorem Sparse.ofList_wf (i : Nat) (xs : List α) : Sparse.wf d (Sparse.ofList d i xs) := by
  induction xs generalizing i with
  | nil => exact Sparse.wf_nil
  | cons x xs ih =>
    rw [Sparse.ofList]
    split_ifs with h
    · exact ih _
    · exact Sparse.wf_cons.2 ⟨fun e he => (Sparse.mem_ofList he).1, h, ih _⟩

theorem Sparse.get_ofList (i : Nat) (xs : List α) (a : Nat) :
    Sparse.get d (Sparse.ofList d i xs) (i + a) = xs[a]?.getD d := by
  induction xs generalizing i a with
  | nil => simp [Sparse.ofList, Sparse.get]
  | cons x xs ih =>
    cases a with
    | zero =>
      rw [Sparse.ofList]
      split_ifs with h
      · rw [Sparse.get_of_lt fun e he => by have := (Sparse.mem_ofList he).1; omega]
        simp [h]
      · simp [Sparse.get]
    | succ a =>
      have := ih (i + 1) a
      rw [show i + 1 + a = i + (a + 1) by omega] at this
      rw [Sparse.ofList]
      split_ifs
      · simpa using this
      · rw [Sparse.get, if_neg (by omega)]; simpa using this

/-- Writes at different places commute on canonical stores. -/
theorem Sparse.put_comm {l : List (Nat × α)} (h : Sparse.wf d l) {a b : Nat} (hab : a ≠ b) (v w : α) :
    Sparse.put d a v (Sparse.put d b w l) = Sparse.put d b w (Sparse.put d a v l) := by
  refine Sparse.ext_of_get (Sparse.put_wf (Sparse.put_wf h _ _) _ _) (Sparse.put_wf (Sparse.put_wf h _ _) _ _) fun c => ?_
  by_cases hca : c = a
  · subst hca
    rw [Sparse.get_put_same (Sparse.put_wf h _ _), Sparse.get_put_ne hab, Sparse.get_put_same h]
  · by_cases hcb : c = b
    · subst hcb
      rw [Sparse.get_put_ne hca, Sparse.get_put_same h, Sparse.get_put_same (Sparse.put_wf h _ _)]
    · rw [Sparse.get_put_ne hca, Sparse.get_put_ne hcb, Sparse.get_put_ne hcb, Sparse.get_put_ne hca]

end Sys2Proof.Machine
end

