-- ==== Sys2Proof/Laws/State.lean ====
section
/-! SUPPORT. One lemma per field per update of the state, each true by rfl. -/

namespace Sys2Proof.Machine

/-! `State.setCore` -/
@[simp] theorem State.setCore_before (s : State) (c : CoreState) : (s.setCore c).before = s.before := rfl
@[simp] theorem State.setCore_after (s : State) (c : CoreState) : (s.setCore c).after = s.after := rfl
@[simp] theorem State.setCore_queues (s : State) (c : CoreState) : (s.setCore c).queues = s.queues := rfl
@[simp] theorem State.setCore_agenda (s : State) (c : CoreState) : (s.setCore c).agenda = s.agenda := rfl
@[simp] theorem State.setCore_core (s : State) (c : CoreState) : (s.setCore c).core = c := rfl

/-! `State.writeMem` -/
@[simp] theorem State.writeMem_before (s : State) (a : Nat) (v : Word) : (s.writeMem a v).before = s.before := rfl
@[simp] theorem State.writeMem_after (s : State) (a : Nat) (v : Word) : (s.writeMem a v).after = s.after := rfl
@[simp] theorem State.writeMem_queues (s : State) (a : Nat) (v : Word) : (s.writeMem a v).queues = s.queues := rfl
@[simp] theorem State.writeMem_agenda (s : State) (a : Nat) (v : Word) : (s.writeMem a v).agenda = s.agenda := rfl
@[simp] theorem State.writeMem_core_ip (s : State) (a : Nat) (v : Word) : (s.writeMem a v).core.ip = s.core.ip := rfl
@[simp] theorem State.writeMem_core_status (s : State) (a : Nat) (v : Word) : (s.writeMem a v).core.status = s.core.status := rfl
@[simp] theorem State.writeMem_core_fault (s : State) (a : Nat) (v : Word) : (s.writeMem a v).core.fault = s.core.fault := rfl
@[simp] theorem State.writeMem_core_mem (s : State) (a : Nat) (v : Word) : (s.writeMem a v).core.mem = s.core.mem.write a v := rfl
@[simp] theorem State.writeMem_core_trace (s : State) (a : Nat) (v : Word) : (s.writeMem a v).core.trace = s.core.trace := rfl
@[simp] theorem State.writeMem_core_inQ (s : State) (a : Nat) (v : Word) : (s.writeMem a v).core.inQ = s.core.inQ := rfl
@[simp] theorem State.writeMem_core_outQ (s : State) (a : Nat) (v : Word) : (s.writeMem a v).core.outQ = s.core.outQ := rfl

/-! `State.raise` -/
@[simp] theorem State.raise_before (s : State) (cause : FaultCause) : (s.raise cause).before = s.before := rfl
@[simp] theorem State.raise_after (s : State) (cause : FaultCause) : (s.raise cause).after = s.after := rfl
@[simp] theorem State.raise_queues (s : State) (cause : FaultCause) : (s.raise cause).queues = s.queues := rfl
@[simp] theorem State.raise_agenda (s : State) (cause : FaultCause) : (s.raise cause).agenda = s.agenda := rfl
@[simp] theorem State.raise_core_ip (s : State) (cause : FaultCause) : (s.raise cause).core.ip = s.core.ip := rfl
@[simp] theorem State.raise_core_status (s : State) (cause : FaultCause) : (s.raise cause).core.status = .faulted := rfl
@[simp] theorem State.raise_core_fault (s : State) (cause : FaultCause) : (s.raise cause).core.fault = some ⟨s.core.ip, cause⟩ := rfl
@[simp] theorem State.raise_core_mem (s : State) (cause : FaultCause) : (s.raise cause).core.mem = s.core.mem := rfl
@[simp] theorem State.raise_core_trace (s : State) (cause : FaultCause) : (s.raise cause).core.trace = s.core.trace := rfl
@[simp] theorem State.raise_core_inQ (s : State) (cause : FaultCause) : (s.raise cause).core.inQ = s.core.inQ := rfl
@[simp] theorem State.raise_core_outQ (s : State) (cause : FaultCause) : (s.raise cause).core.outQ = s.core.outQ := rfl

/-! `State.retire` -/
@[simp] theorem State.retire_before (s : State) (m : Mnemonic) (mode : Nat) (nextIp : Word) : (s.retire m mode nextIp).before = s.before := rfl
@[simp] theorem State.retire_after (s : State) (m : Mnemonic) (mode : Nat) (nextIp : Word) : (s.retire m mode nextIp).after = s.after := rfl
@[simp] theorem State.retire_queues (s : State) (m : Mnemonic) (mode : Nat) (nextIp : Word) : (s.retire m mode nextIp).queues = s.queues := rfl
@[simp] theorem State.retire_agenda (s : State) (m : Mnemonic) (mode : Nat) (nextIp : Word) : (s.retire m mode nextIp).agenda = s.agenda := rfl
@[simp] theorem State.retire_core_ip (s : State) (m : Mnemonic) (mode : Nat) (nextIp : Word) : (s.retire m mode nextIp).core.ip = nextIp := rfl
@[simp] theorem State.retire_core_status (s : State) (m : Mnemonic) (mode : Nat) (nextIp : Word) : (s.retire m mode nextIp).core.status = s.core.status := rfl
@[simp] theorem State.retire_core_fault (s : State) (m : Mnemonic) (mode : Nat) (nextIp : Word) : (s.retire m mode nextIp).core.fault = s.core.fault := rfl
@[simp] theorem State.retire_core_mem (s : State) (m : Mnemonic) (mode : Nat) (nextIp : Word) : (s.retire m mode nextIp).core.mem = s.core.mem := rfl
@[simp] theorem State.retire_core_trace (s : State) (m : Mnemonic) (mode : Nat) (nextIp : Word) : (s.retire m mode nextIp).core.trace = s.core.trace ++ [⟨s.core.ip, m.code, mode, m⟩] := rfl
@[simp] theorem State.retire_core_inQ (s : State) (m : Mnemonic) (mode : Nat) (nextIp : Word) : (s.retire m mode nextIp).core.inQ = s.core.inQ := rfl
@[simp] theorem State.retire_core_outQ (s : State) (m : Mnemonic) (mode : Nat) (nextIp : Word) : (s.retire m mode nextIp).core.outQ = s.core.outQ := rfl

/-! `State.retireNext` -/
@[simp] theorem State.retireNext_before (s : State) (m : Mnemonic) (mode : Nat) : (s.retireNext m mode).before = s.before := rfl
@[simp] theorem State.retireNext_after (s : State) (m : Mnemonic) (mode : Nat) : (s.retireNext m mode).after = s.after := rfl
@[simp] theorem State.retireNext_queues (s : State) (m : Mnemonic) (mode : Nat) : (s.retireNext m mode).queues = s.queues := rfl
@[simp] theorem State.retireNext_agenda (s : State) (m : Mnemonic) (mode : Nat) : (s.retireNext m mode).agenda = s.agenda := rfl
@[simp] theorem State.retireNext_core_ip (s : State) (m : Mnemonic) (mode : Nat) : (s.retireNext m mode).core.ip = s.core.advanced m.params := rfl
@[simp] theorem State.retireNext_core_status (s : State) (m : Mnemonic) (mode : Nat) : (s.retireNext m mode).core.status = s.core.status := rfl
@[simp] theorem State.retireNext_core_fault (s : State) (m : Mnemonic) (mode : Nat) : (s.retireNext m mode).core.fault = s.core.fault := rfl
@[simp] theorem State.retireNext_core_mem (s : State) (m : Mnemonic) (mode : Nat) : (s.retireNext m mode).core.mem = s.core.mem := rfl
@[simp] theorem State.retireNext_core_trace (s : State) (m : Mnemonic) (mode : Nat) : (s.retireNext m mode).core.trace = s.core.trace ++ [⟨s.core.ip, m.code, mode, m⟩] := rfl
@[simp] theorem State.retireNext_core_inQ (s : State) (m : Mnemonic) (mode : Nat) : (s.retireNext m mode).core.inQ = s.core.inQ := rfl
@[simp] theorem State.retireNext_core_outQ (s : State) (m : Mnemonic) (mode : Nat) : (s.retireNext m mode).core.outQ = s.core.outQ := rfl

/-! `State.setHalted` -/
@[simp] theorem State.setHalted_before (s : State) : (s.setHalted).before = s.before := rfl
@[simp] theorem State.setHalted_after (s : State) : (s.setHalted).after = s.after := rfl
@[simp] theorem State.setHalted_queues (s : State) : (s.setHalted).queues = s.queues := rfl
@[simp] theorem State.setHalted_agenda (s : State) : (s.setHalted).agenda = s.agenda := rfl
@[simp] theorem State.setHalted_core_ip (s : State) : (s.setHalted).core.ip = s.core.ip := rfl
@[simp] theorem State.setHalted_core_status (s : State) : (s.setHalted).core.status = .halted := rfl
@[simp] theorem State.setHalted_core_fault (s : State) : (s.setHalted).core.fault = s.core.fault := rfl
@[simp] theorem State.setHalted_core_mem (s : State) : (s.setHalted).core.mem = s.core.mem := rfl
@[simp] theorem State.setHalted_core_trace (s : State) : (s.setHalted).core.trace = s.core.trace := rfl
@[simp] theorem State.setHalted_core_inQ (s : State) : (s.setHalted).core.inQ = s.core.inQ := rfl
@[simp] theorem State.setHalted_core_outQ (s : State) : (s.setHalted).core.outQ = s.core.outQ := rfl

/-! Queue updates leave the cores alone. -/
@[simp] theorem State.setQueue_before (s : State) (q : Nat) (l : List Word) : (s.setQueue q l).before = s.before := rfl
@[simp] theorem State.setQueue_core (s : State) (q : Nat) (l : List Word) : (s.setQueue q l).core = s.core := rfl
@[simp] theorem State.setQueue_after (s : State) (q : Nat) (l : List Word) : (s.setQueue q l).after = s.after := rfl
@[simp] theorem State.setQueue_agenda (s : State) (q : Nat) (l : List Word) : (s.setQueue q l).agenda = s.agenda := rfl
theorem State.setQueue_queues (s : State) (q : Nat) (l : List Word) : (s.setQueue q l).queues = Sparse.put [] q l s.queues := rfl
@[simp] theorem State.push_before (s : State) (q : Nat) (v : Word) : (s.push q v).before = s.before := rfl
@[simp] theorem State.push_core (s : State) (q : Nat) (v : Word) : (s.push q v).core = s.core := rfl
@[simp] theorem State.push_after (s : State) (q : Nat) (v : Word) : (s.push q v).after = s.after := rfl
@[simp] theorem State.push_agenda (s : State) (q : Nat) (v : Word) : (s.push q v).agenda = s.agenda := rfl
theorem State.push_queues (s : State) (q : Nat) (v : Word) : (s.push q v).queues = Sparse.put [] q (s.queue q ++ [v]) s.queues := rfl
@[simp] theorem State.pop_before (s : State) (q : Nat) : (s.pop q).before = s.before := rfl
@[simp] theorem State.pop_core (s : State) (q : Nat) : (s.pop q).core = s.core := rfl
@[simp] theorem State.pop_after (s : State) (q : Nat) : (s.pop q).after = s.after := rfl
@[simp] theorem State.pop_agenda (s : State) (q : Nat) : (s.pop q).agenda = s.agenda := rfl
theorem State.pop_queues (s : State) (q : Nat) : (s.pop q).queues = Sparse.put [] q (s.queue q).tail s.queues := rfl
@[simp] theorem State.inPop_before (s : State) : (s.inPop).before = s.before := rfl
@[simp] theorem State.inPop_core (s : State) : (s.inPop).core = s.core := rfl
@[simp] theorem State.inPop_after (s : State) : (s.inPop).after = s.after := rfl
@[simp] theorem State.inPop_agenda (s : State) : (s.inPop).agenda = s.agenda := rfl
theorem State.inPop_queues (s : State) : (s.inPop).queues = Sparse.put [] s.core.inQ s.inputQueue.tail s.queues := rfl
@[simp] theorem State.outPush_before (s : State) (v : Word) : (s.outPush v).before = s.before := rfl
@[simp] theorem State.outPush_core (s : State) (v : Word) : (s.outPush v).core = s.core := rfl
@[simp] theorem State.outPush_after (s : State) (v : Word) : (s.outPush v).after = s.after := rfl
@[simp] theorem State.outPush_agenda (s : State) (v : Word) : (s.outPush v).agenda = s.agenda := rfl
theorem State.outPush_queues (s : State) (v : Word) : (s.outPush v).queues = Sparse.put [] s.core.outQ (s.queue s.core.outQ ++ [v]) s.queues := rfl

/-! The hold and fault entry as whole states. -/
@[simp] theorem State.hold_eq (s : State) : s.hold = s := rfl

/-! Only `before`, `core`, `after` decide the cores, and only `queues` the queues. -/
theorem State.cores_eq (s : State) : s.cores = s.before ++ s.core :: s.after := rfl

theorem State.mem_cores {s : State} {c : CoreState} : c ∈ s.cores ↔ c ∈ s.before ∨ c = s.core ∨ c ∈ s.after := by
  simp [State.cores_eq]

theorem State.core_mem_cores (s : State) : s.core ∈ s.cores := by simp [State.cores_eq]

theorem State.length_cores (s : State) : s.cores.length = s.before.length + 1 + s.after.length := by
  simp [State.cores_eq]; omega

theorem State.getElem_cores_active (s : State) : s.cores[s.before.length]? = some s.core := by
  simp [State.cores_eq]

/-- States with the same neighbours of the active core agree on every other core. -/
theorem State.getElem_cores_of_ne {s t : State} (hb : t.before = s.before) (ha : t.after = s.after) {j : Nat}
    (hj : j ≠ s.before.length) : t.cores[j]? = s.cores[j]? := by
  rw [State.cores_eq, State.cores_eq, hb, ha, List.getElem?_append, List.getElem?_append]
  split_ifs with h
  · rfl
  · rw [List.getElem?_cons, List.getElem?_cons, if_neg (by omega), if_neg (by omega)]

end Sys2Proof.Machine
end

