-- ==== Sys2Proof/Laws/Memory.lean ====
section
/-! SUPPORT. The laws of memory: what a read answers, read after write, the canonical form kept by every memory
operation, and a reset's memory. -/

namespace Sys2Proof.Machine

theorem Memory.read_of_valid {m : Memory} {a : Int} (h : m.valid a) :
    m.read a = some (Sparse.get Memory.unlisted m.cells a.toNat) := if_pos h

theorem Memory.read_of_not_valid {m : Memory} {a : Int} (h : ¬ m.valid a) : m.read a = none := if_neg h

theorem Memory.read_eq_none {m : Memory} {a : Int} : m.read a = none ↔ ¬ m.valid a := by
  rw [Memory.read]; split_ifs with h <;> simp [h]

theorem Memory.valid_of_read {m : Memory} {a : Int} {v : Word} (h : m.read a = some v) : m.valid a := by
  by_contra hn
  rw [Memory.read_of_not_valid hn] at h
  cases h

/-- An index is readable exactly when it is valid (R32). -/
theorem Memory.exists_read {m : Memory} {a : Int} : (∃ v, m.read a = some v) ↔ m.valid a :=
  ⟨fun ⟨_, h⟩ => Memory.valid_of_read h, fun h => ⟨_, Memory.read_of_valid h⟩⟩

@[simp] theorem Memory.write_size (m : Memory) (a : Nat) (v : Word) : (m.write a v).size = m.size := by
  rw [Memory.write]; split_ifs <;> rfl

theorem Memory.read_write_same {m : Memory} (h : m.wf) {a : Nat} (ha : a < m.size) (v : Word) :
    (m.write a v).read a = some v := by
  rw [Memory.read_of_valid ⟨by omega, by rw [Memory.write_size]; omega⟩, Memory.write, if_pos ha, Int.toNat_natCast]
  exact congrArg some (Sparse.get_put_same h.1 a v)

theorem Memory.read_write_ne (m : Memory) {a : Nat} {b : Int} (hab : b ≠ a) (v : Word) :
    (m.write a v).read b = m.read b := by
  by_cases hb : m.valid b
  · rw [Memory.read_of_valid hb, Memory.read_of_valid ⟨hb.1, by rw [Memory.write_size]; exact hb.2⟩, Memory.write]
    split_ifs
    · exact congrArg some (Sparse.get_put_ne (by have := hb.1; omega) v _)
    · rfl
  · rw [Memory.read_of_not_valid hb, Memory.read_of_not_valid]
    rintro ⟨h1, h2⟩
    rw [Memory.write_size] at h2
    exact hb ⟨h1, h2⟩

/-- A write keeps the canonical form. -/
theorem Memory.write_wf {m : Memory} (h : m.wf) (a : Nat) (v : Word) : (m.write a v).wf := by
  rw [Memory.write]
  split_ifs with ha
  · refine ⟨Sparse.put_wf h.1 a v, fun e he => ?_, h.2.2⟩
    rcases Sparse.mem_put he with he | rfl
    · exact h.2.1 e he
    · exact ha
  · exact h

/-- A longer memory with the same listed cells is canonical (used by `Memory.place`). -/
theorem Memory.grow_wf {m : Memory} (h : m.wf) {n : Nat} (hn : m.size ≤ n) (hmax : n ≤ Config.maxMemory) :
    ({ m with size := n } : Memory).wf :=
  ⟨h.1, fun e he => lt_of_lt_of_le (h.2.1 e he) hn, hmax⟩

theorem Memory.place_wf {m : Memory} (h : m.wf) {a : Nat} (ha : a + 4 ≤ Config.maxMemory) (w : Nat) :
    (m.place a w).wf :=
  Memory.write_wf (Memory.write_wf (Memory.write_wf (Memory.write_wf
    (Memory.grow_wf h (le_max_left _ _) (max_le h.2.2 ha)) _ _) _ _) _ _) _ _

theorem Memory.ofImage_wf {image : List Word} (h : image.length ≤ Config.maxMemory) : (Memory.ofImage image).wf :=
  ⟨Sparse.ofList_wf 0 image, fun e he => by
    have := (Sparse.mem_ofList he).2
    rwa [Nat.zero_add] at this, h⟩

/-- `mem[a] = IMAGE[a]` (R200). -/
theorem Memory.read_ofImage (image : List Word) (a : Nat) : (Memory.ofImage image).read a = image[a]? := by
  have hg := Sparse.get_ofList (d := Memory.unlisted) 0 image a
  rw [Nat.zero_add] at hg
  by_cases ha : a < image.length
  · rw [Memory.read_of_valid ⟨by omega, by simpa [Memory.ofImage] using ha⟩]
    simp only [Memory.ofImage, Int.toNat_natCast, hg, List.getElem?_eq_getElem ha, Option.getD_some]
  · rw [Memory.read_of_not_valid (by simp [Memory.ofImage]; omega), List.getElem?_eq_none (by omega)]

/-- Canonical memories of one length that read alike are equal data. -/
theorem Memory.ext_of_read {m n : Memory} (hm : m.wf) (hn : n.wf) (hs : m.size = n.size)
    (h : ∀ a : Int, m.read a = n.read a) : m = n := by
  have hc : m.cells = n.cells := by
    refine Sparse.ext_of_get hm.1 hn.1 fun a => ?_
    by_cases ha : a < m.size
    · have := h a
      rw [Memory.read_of_valid ⟨by omega, by omega⟩, Memory.read_of_valid ⟨by omega, by omega⟩] at this
      simpa using this
    · have hz : ∀ p : Memory, p.wf → p.size = m.size → Sparse.get Memory.unlisted p.cells a = Memory.unlisted := by
        intro p hp hps
        have aux : ∀ l : List (Nat × Word), (∀ e ∈ l, e.1 < p.size) → Sparse.get Memory.unlisted l a = Memory.unlisted := by
          intro l
          induction l with
          | nil => intro _; rfl
          | cons e l ih =>
            intro hl
            obtain ⟨k, x⟩ := e
            have : k < p.size := hl (k, x) (by simp)
            rw [Sparse.get, if_neg (by omega)]
            exact ih fun e he => hl e (by simp [he])
        exact aux _ hp.2.1
      rw [hz m hm rfl, hz n hn hs.symm]
  cases m; cases n
  simp_all

/-! Queues, read through `State.queue`. -/

theorem State.queue_congr {s t : State} (h : t.queues = s.queues) (q : Nat) : t.queue q = s.queue q := by
  rw [State.queue, State.queue, h]

theorem State.queue_setQueue_same {s : State} (h : Sparse.wf [] s.queues) (q : Nat) (l : List Word) :
    (s.setQueue q l).queue q = l := Sparse.get_put_same h q l

theorem State.queue_setQueue_ne (s : State) {p q : Nat} (hpq : p ≠ q) (l : List Word) :
    (s.setQueue q l).queue p = s.queue p := Sparse.get_put_ne hpq l s.queues

theorem State.setQueue_wf {s : State} (h : Sparse.wf [] s.queues) (q : Nat) (l : List Word) :
    Sparse.wf [] (s.setQueue q l).queues := Sparse.put_wf h q l

end Sys2Proof.Machine
end

