-- ==== Sys2Proof/Laws/Operands.lean ====
section
/-! SUPPORT. Operand resolution against the rules' own words (`Reads`, `Targets`), the two arithmetic facts about
Words, and fault entry as one whole state. -/

namespace Sys2Proof.Machine

theorem State.raise_eq_faultedWith (s : State) (cause : FaultCause) : s.raise cause = s.faultedWith cause := rfl

/-! Words. -/

theorem toInt_ofInt {r : Int} (h1 : wMin ≤ r) (h2 : r ≤ wMax) : (BitVec.ofInt 64 r).toInt = r := by
  rw [BitVec.toInt_ofInt]
  simp only [wMin, wMax] at h1 h2
  exact Int.bmod_eq_of_le (by norm_num; omega) (by norm_num; omega)

/-- A result inside the Word range is stored exactly (R102). -/
theorem narrow_of_range {r : Int} (h1 : wMin ≤ r) (h2 : r ≤ wMax) : ∃ v : Word, narrow r = some v ∧ v.toInt = r :=
  ⟨_, if_pos ⟨h1, h2⟩, toInt_ofInt h1 h2⟩

theorem narrow_eq_none {r : Int} : narrow r = none ↔ r < wMin ∨ wMax < r := by
  rw [narrow]; split_ifs with h <;> simp <;> omega

/-- The advance is exact wherever an instruction can stand (R13). -/
theorem CoreState.toInt_advanced {c : CoreState} {n : Nat} (h1 : wMin ≤ c.ip.toInt + 1 + n)
    (h2 : c.ip.toInt + 1 + n ≤ wMax) : (c.advanced n).toInt = c.ip.toInt + 1 + n := by
  have hadv : c.advanced n = BitVec.ofInt 64 (c.ip.toInt + 1 + n) := by
    rw [CoreState.advanced, add_assoc, BitVec.ofInt_add, BitVec.ofInt_toInt]
    congr 1
  rw [hadv, toInt_ofInt h1 h2]

/-! Resolution. -/

theorem resolve_of_reads {c : CoreState} {k : Nat} {d : Mode} {x : Word} (h : c.Reads k d x) :
    ∃ p, resolve c k d = .ok p ∧ p.value = x := by
  cases d with
  | immediate =>
    have h : c.mem.read (c.slot k) = some x := h
    exact ⟨.immediate x, by simp [resolve, resolveImmediate, h], rfl⟩
  | position =>
    obtain ⟨v, hv, hx⟩ := h
    have hv : c.mem.read (c.slot k) = some v := hv
    exact ⟨.reference v.toInt.toNat x, by simp [resolve, resolvePosition, hv, hx], rfl⟩

theorem reads_of_resolve {c : CoreState} {k : Nat} {d : Mode} {p : Operand} (h : resolve c k d = .ok p) :
    c.Reads k d p.value := by
  cases d with
  | immediate =>
    rw [resolve, resolveImmediate] at h
    cases hv : c.mem.read (c.slot k) with
    | none => simp [hv] at h
    | some v => simp [hv] at h; subst h; exact hv
  | position =>
    rw [resolve, resolvePosition] at h
    cases hv : c.mem.read (c.slot k) with
    | none => simp [hv] at h
    | some v =>
      cases hx : c.mem.read v.toInt with
      | none => simp [hv, hx] at h
      | some x => simp [hv, hx] at h; subst h; exact ⟨v, hv, hx⟩

/-- A parameter has at most one value. -/
theorem CoreState.Reads.unique {c : CoreState} {k : Nat} {d : Mode} {x y : Word} (hx : c.Reads k d x)
    (hy : c.Reads k d y) : x = y := by
  obtain ⟨p, hp, rfl⟩ := resolve_of_reads hx
  obtain ⟨q, hq, rfl⟩ := resolve_of_reads hy
  rw [hp] at hq
  cases hq
  rfl

theorem resolveTarget_of_targets {c : CoreState} {k a : Nat} (h : c.Targets k a) : resolveTarget c k = .ok a := by
  obtain ⟨v, hv, hva, ha⟩ := h
  have hv : c.mem.read (c.slot k) = some v := hv
  have hx := Memory.read_of_valid (m := c.mem) (a := v.toInt) ⟨by omega, by omega⟩
  rw [hva] at hx
  simp [resolveTarget, resolvePosition, hv, hva, hx]

theorem targets_of_resolveTarget {c : CoreState} {k a : Nat} (h : resolveTarget c k = .ok a) : c.Targets k a := by
  rw [resolveTarget, resolvePosition] at h
  cases hv : c.mem.read (c.slot k) with
  | none => simp [hv] at h
  | some v =>
    cases hx : c.mem.read v.toInt with
    | none => simp [hv, hx] at h
    | some x =>
      simp [hv, hx] at h
      obtain ⟨h1, h2⟩ := Memory.valid_of_read hx
      exact ⟨v, hv, by omega, by omega⟩

/-- The target of a resolved write lies in memory. -/
theorem CoreState.Targets.lt {c : CoreState} {k a : Nat} (h : c.Targets k a) : a < c.mem.size := h.choose_spec.2.2

/-- A write target resolves exactly as a position-mode parameter does (R76). -/
theorem resolveTarget_eq (c : CoreState) (k : Nat) :
    resolveTarget c k =
      match resolve c k .position with
      | .error e => .error e
      | .ok (.reference a _) => .ok a
      | .ok (.immediate _) => .error (.slot k (c.slot k)) := by
  rw [resolveTarget, resolve]
  cases resolvePosition c k with
  | error e => rfl
  | ok p => obtain ⟨a, x⟩ := p; rfl

theorem resolveF2_ok {c : CoreState} {a b : Mode} {x y : Word} :
    resolveF2 c a b = .ok (x, y) ↔ c.Reads 1 a x ∧ c.Reads 2 b y := by
  constructor
  · intro h
    rw [resolveF2] at h
    cases h1 : resolve c 1 a with
    | error e => simp [h1] at h
    | ok p =>
      cases h2 : resolve c 2 b with
      | error e => simp [h1, h2] at h
      | ok q =>
        simp [h1, h2] at h
        exact ⟨h.1 ▸ reads_of_resolve h1, h.2 ▸ reads_of_resolve h2⟩
  · rintro ⟨h1, h2⟩
    obtain ⟨p, hp, rfl⟩ := resolve_of_reads h1
    obtain ⟨q, hq, rfl⟩ := resolve_of_reads h2
    simp [resolveF2, hp, hq]

theorem resolveF3_ok {c : CoreState} {a b : Mode} {x y : Word} {t : Nat} :
    resolveF3 c a b = .ok (x, y, t) ↔ c.Reads 1 a x ∧ c.Reads 2 b y ∧ c.Targets 3 t := by
  constructor
  · intro h
    rw [resolveF3] at h
    cases h1 : resolveF2 c a b with
    | error e => simp [h1] at h
    | ok p =>
      obtain ⟨x', y'⟩ := p
      cases h2 : resolveTarget c 3 with
      | error e => simp [h1, h2] at h
      | ok t' =>
        simp [h1, h2] at h
        obtain ⟨rfl, rfl, rfl⟩ := h
        exact ⟨(resolveF2_ok.1 h1).1, (resolveF2_ok.1 h1).2, targets_of_resolveTarget h2⟩
  · rintro ⟨h1, h2, h3⟩
    simp [resolveF3, resolveF2_ok.2 ⟨h1, h2⟩, resolveTarget_of_targets h3]

end Sys2Proof.Machine
end

