-- ==== Sys2Proof/Laws/Decode.lean ====
section
/-! SUPPORT. The decoder and the encoder, one lemma per helper: the table's two directions, a parameter's mode, the
mode words' digits. -/

namespace Sys2Proof

theorem Mnemonic.code_lt (m : Mnemonic) : m.code < 100 := by cases m <;> decide

theorem Mnemonic.params_le (m : Mnemonic) : m.params ≤ 3 := by cases m <;> decide

@[simp] theorem Mnemonic.ofCode_code (m : Mnemonic) : Mnemonic.ofCode m.code = some m := by cases m <;> rfl

/-- The table is read both ways alike (R56). -/
theorem Mnemonic.ofCode_eq_some {code : Nat} {m : Mnemonic} : Mnemonic.ofCode code = some m ↔ m.code = code := by
  constructor
  · intro h
    unfold Mnemonic.ofCode at h
    split at h <;> cases h <;> rfl
  · rintro rfl; exact Mnemonic.ofCode_code m

theorem Mnemonic.ofCode_eq_none {code : Nat} : Mnemonic.ofCode code = none ↔ ∀ m : Mnemonic, m.code ≠ code := by
  constructor
  · intro h m hm
    rw [Mnemonic.ofCode_eq_some.2 hm] at h
    cases h
  · intro h
    cases hc : Mnemonic.ofCode code with
    | none => rfl
    | some m => exact absurd (Mnemonic.ofCode_eq_some.1 hc) (h m)

theorem digit_lt (v i : Nat) : digit v i < 10 := Nat.mod_lt _ (by norm_num)

theorem Mode.digit_le (m : Mode) : m.digit ≤ 1 := by cases m <;> decide

/-- A parameter's mode, by its digit (R54). -/
theorem parameterMode_eq_ok {mode k : Nat} {m : Mode} :
    parameterMode mode k = .ok m ↔ Sys2Proof.digit mode (k - 1) = m.digit := by
  rw [parameterMode]
  rcases Sys2Proof.digit mode (k - 1) with _ | _ | d
  · cases m <;> simp [Mode.digit]
  · cases m <;> simp [Mode.digit]
  · cases m <;> simp [Mode.digit]

theorem parameterMode_eq_error {mode k : Nat} {e : DecodeError} :
    parameterMode mode k = .error e ↔
      2 ≤ Sys2Proof.digit mode (k - 1) ∧ e = .modeError k (Sys2Proof.digit mode (k - 1)) := by
  rw [parameterMode]
  rcases Sys2Proof.digit mode (k - 1) with _ | _ | d
  · simp
  · simp
  · simp [eq_comm]

/-! The digits of each format's mode word. -/

theorem digit_zero (v : Nat) : Sys2Proof.digit v 0 = v % 10 := by simp [Sys2Proof.digit]
theorem digit_one (v : Nat) : Sys2Proof.digit v 1 = v / 10 % 10 := by simp [Sys2Proof.digit]
theorem digit_two (v : Nat) : Sys2Proof.digit v 2 = v / 100 % 10 := by simp [Sys2Proof.digit]

theorem Mode.digit_injective {a b : Mode} (h : a.digit = b.digit) : a = b := by
  cases a <;> cases b <;> first | rfl | simp [Mode.digit] at h

theorem Instr.wordValue_mod (i : Instr) : i.wordValue % 100 = i.mnemonic.code := by
  have := i.mnemonic.code_lt
  rw [Instr.wordValue]; omega

theorem Instr.wordValue_div (i : Instr) : i.wordValue / 100 = i.modeWord := by
  have := i.mnemonic.code_lt
  rw [Instr.wordValue]; omega

/-! What each format's decoder accepts: the mode word is the accepted instruction's. -/

theorem decodeF3_ok {make : Mode → Mode → Nat → Instr} {mode : Nat} {i : Instr} (h : decodeF3 make mode = .ok i) :
    ∃ a b n, i = make a b n ∧ modeF3 a b n = mode := by
  rw [decodeF3] at h
  cases h1 : parameterMode mode 1 with
  | error e => simp [h1] at h
  | ok a =>
    cases h2 : parameterMode mode 2 with
    | error e => simp [h1, h2] at h
    | ok b =>
      cases h3 : parameterMode mode 3 with
      | error e => simp [h1, h2, h3] at h
      | ok c =>
        cases c with
        | immediate => simp [h1, h2, h3] at h
        | position =>
          simp only [h1, h2, h3, Except.ok.injEq] at h
          have d1 := parameterMode_eq_ok.1 h1
          have d2 := parameterMode_eq_ok.1 h2
          have d3 : Sys2Proof.digit mode 2 = 0 := parameterMode_eq_ok.1 h3
          rw [show 1 - 1 = 0 from rfl, digit_zero] at d1
          rw [show 2 - 1 = 1 from rfl, digit_one] at d2
          rw [digit_two] at d3
          exact ⟨a, b, mode / 1000, h.symm, by rw [modeF3]; omega⟩

theorem decodeF2_ok {make : Mode → Mode → Nat → Instr} {mode : Nat} {i : Instr} (h : decodeF2 make mode = .ok i) :
    ∃ a b n, i = make a b n ∧ modeF2 a b n = mode := by
  rw [decodeF2] at h
  cases h1 : parameterMode mode 1 with
  | error e => simp [h1] at h
  | ok a =>
    cases h2 : parameterMode mode 2 with
    | error e => simp [h1, h2] at h
    | ok b =>
      simp only [h1, h2, Except.ok.injEq] at h
      have d1 := parameterMode_eq_ok.1 h1
      have d2 := parameterMode_eq_ok.1 h2
      rw [show 1 - 1 = 0 from rfl, digit_zero] at d1
      rw [show 2 - 1 = 1 from rfl, digit_one] at d2
      exact ⟨a, b, mode / 100, h.symm, by rw [modeF2]; omega⟩

theorem decodeF1R_ok {make : Mode → Nat → Instr} {mode : Nat} {i : Instr} (h : decodeF1R make mode = .ok i) :
    ∃ a n, i = make a n ∧ modeF1R a n = mode := by
  rw [decodeF1R] at h
  cases h1 : parameterMode mode 1 with
  | error e => simp [h1] at h
  | ok a =>
    simp only [h1, Except.ok.injEq] at h
    have d1 := parameterMode_eq_ok.1 h1
    rw [show 1 - 1 = 0 from rfl, digit_zero] at d1
    exact ⟨a, mode / 10, h.symm, by rw [modeF1R]; omega⟩

theorem decodeF1W_ok {make : Nat → Instr} {mode : Nat} {i : Instr} (h : decodeF1W make mode = .ok i) :
    ∃ n, i = make n ∧ modeF1W n = mode := by
  rw [decodeF1W] at h
  cases h1 : parameterMode mode 1 with
  | error e => simp [h1] at h
  | ok a =>
    cases a with
    | immediate => simp [h1] at h
    | position =>
      simp only [h1, Except.ok.injEq] at h
      have d1 : Sys2Proof.digit mode 0 = 0 := parameterMode_eq_ok.1 h1
      rw [digit_zero] at d1
      exact ⟨mode / 10, h.symm, by rw [modeF1W]; omega⟩

/-- The two decimal fields of a word that decodes are those of the instruction (R51). -/
theorem decode_fields {w : Word} {i : Instr} (h : decode w = .ok i) :
    0 ≤ w.toInt ∧ i.mnemonic.code = w.toInt.toNat % 100 ∧ i.modeWord = w.toInt.toNat / 100 := by
  rw [decode] at h
  split at h
  · cases h
  · rename_i hw
    refine ⟨by omega, ?_⟩
    rw [decodeSplit] at h
    cases hc : Mnemonic.ofCode (w.toInt.toNat % 100) with
    | none => simp [hc] at h
    | some m =>
      rw [← Mnemonic.ofCode_eq_some.1 hc]
      cases m <;> simp only [hc] at h
      case halt => cases h; exact ⟨rfl, rfl⟩
      case store => obtain ⟨n, rfl, hm⟩ := decodeF1W_ok h; exact ⟨rfl, hm⟩
      case output => obtain ⟨a, n, rfl, hm⟩ := decodeF1R_ok h; exact ⟨rfl, hm⟩
      case jumpIfTrue => obtain ⟨a, b, n, rfl, hm⟩ := decodeF2_ok h; exact ⟨rfl, hm⟩
      case jumpIfFalse => obtain ⟨a, b, n, rfl, hm⟩ := decodeF2_ok h; exact ⟨rfl, hm⟩
      all_goals obtain ⟨a, b, n, rfl, hm⟩ := decodeF3_ok h; exact ⟨rfl, hm⟩

end Sys2Proof
end

