-- ==== Sys2Proof/Laws/Exec.lean ====
section
/-! SUPPORT. What each shape of instruction can do, said once, and what `exec` can do (R86): fault entry, the hold,
or a completion of the instruction's own kind. -/

namespace Sys2Proof.Machine

theorem execF3_cases {m : Mnemonic} {f : Word → Word → Except FaultCause Word} {a b : Mode} {n : Nat} {s t : State}
    (h : execF3 m f a b n s = .next t) :
    (∃ e, t = s.raise e) ∨
      ∃ x y p r, s.core.Reads 1 a x ∧ s.core.Reads 2 b y ∧ s.core.Targets 3 p ∧ f x y = .ok r ∧
        t = (s.writeMem p r).retireNext m (modeF3 a b n) := by
  rw [execF3] at h
  cases h1 : resolveF3 s.core a b with
  | error e => simp only [h1, Host.Outcome.next.injEq] at h; exact .inl ⟨e, h.symm⟩
  | ok v =>
    obtain ⟨x, y, p⟩ := v
    obtain ⟨hx, hy, hp⟩ := resolveF3_ok.1 h1
    cases h2 : f x y with
    | error e => simp only [h1, h2, Host.Outcome.next.injEq] at h; exact .inl ⟨e, h.symm⟩
    | ok r =>
      simp only [h1, h2, Host.Outcome.next.injEq] at h
      exact .inr ⟨x, y, p, r, hx, hy, hp, h2, h.symm⟩

/-- An F3 instruction whose operands resolve and whose result is computed completes. -/
theorem execF3_completes {m : Mnemonic} {f : Word → Word → Except FaultCause Word} {a b : Mode} {n : Nat} {s : State}
    {x y r : Word} {p : Nat} (hx : s.core.Reads 1 a x) (hy : s.core.Reads 2 b y) (hp : s.core.Targets 3 p)
    (hr : f x y = .ok r) : execF3 m f a b n s = .next ((s.writeMem p r).retireNext m (modeF3 a b n)) := by
  simp [execF3, resolveF3_ok.2 ⟨hx, hy, hp⟩, hr]

theorem execF2_cases {m : Mnemonic} {taken : Word → Bool} {a b : Mode} {n : Nat} {s t : State}
    (h : execF2 m taken a b n s = .next t) :
    (∃ e, t = s.raise e) ∨
      ∃ x y, s.core.Reads 1 a x ∧ s.core.Reads 2 b y ∧
        ((taken x = true ∧ t = s.retire m (modeF2 a b n) y) ∨
          (taken x = false ∧ t = s.retireNext m (modeF2 a b n))) := by
  rw [execF2] at h
  cases h1 : resolveF2 s.core a b with
  | error e => simp only [h1, Host.Outcome.next.injEq] at h; exact .inl ⟨e, h.symm⟩
  | ok v =>
    obtain ⟨x, y⟩ := v
    obtain ⟨hx, hy⟩ := resolveF2_ok.1 h1
    refine .inr ⟨x, y, hx, hy, ?_⟩
    simp only [h1] at h
    split at h <;> rename_i hc <;> simp only [Host.Outcome.next.injEq] at h
    · exact .inl ⟨hc, h.symm⟩
    · exact .inr ⟨by simpa using hc, h.symm⟩

theorem execF2_completes {m : Mnemonic} {taken : Word → Bool} {a b : Mode} {n : Nat} {s : State} {x y : Word}
    (hx : s.core.Reads 1 a x) (hy : s.core.Reads 2 b y) :
    execF2 m taken a b n s =
      .next (if taken x then s.retire m (modeF2 a b n) y else s.retireNext m (modeF2 a b n)) := by
  simp only [execF2, resolveF2_ok.2 ⟨hx, hy⟩]
  split <;> rfl

theorem execStore_cases {n : Nat} {s t : State} (h : execStore n s = .next t) :
    (∃ e, t = s.raise e) ∨
      ∃ p, s.core.Targets 1 p ∧
        ((s.inputQueue = [] ∧ t = s) ∨
          ∃ v rest, s.inputQueue = v :: rest ∧ t = (s.inPop.writeMem p v).retireNext .store (modeF1W n)) := by
  rw [execStore] at h
  cases h1 : resolveTarget s.core 1 with
  | error e => simp only [h1, Host.Outcome.next.injEq] at h; exact .inl ⟨e, h.symm⟩
  | ok p =>
    refine .inr ⟨p, targets_of_resolveTarget h1, ?_⟩
    cases h2 : s.inputQueue with
    | nil => simp only [h1, h2, Host.Outcome.next.injEq] at h; exact .inl ⟨rfl, h.symm⟩
    | cons v rest => simp only [h1, h2, Host.Outcome.next.injEq] at h; exact .inr ⟨v, rest, rfl, h.symm⟩

theorem execOutput_cases {a : Mode} {n : Nat} {s t : State} (h : execOutput a n s = .next t) :
    (∃ e, t = s.raise e) ∨
      ∃ x, s.core.Reads 1 a x ∧ t = (s.outPush x).retireNext .output (modeF1R a n) := by
  rw [execOutput] at h
  cases h1 : resolve s.core 1 a with
  | error e => simp only [h1, Host.Outcome.next.injEq] at h; exact .inl ⟨e, h.symm⟩
  | ok p =>
    simp only [h1, Host.Outcome.next.injEq] at h
    exact .inr ⟨p.value, reads_of_resolve h1, h.symm⟩

/-- `checked` answers the exact result or OverflowError (R102). -/
theorem checked_ok {m : Mnemonic} {f : Word → Word → Int} {x y r : Word} (h : checked m f x y = .ok r) :
    r.toInt = f x y ∧ wMin ≤ f x y ∧ f x y ≤ wMax := by
  rw [checked] at h
  cases hn : narrow (f x y) with
  | none => simp [hn] at h
  | some v =>
    simp [hn] at h
    subst h
    have hr : wMin ≤ f x y ∧ f x y ≤ wMax := by
      by_contra hc
      rw [narrow_eq_none.2 (by omega)] at hn
      cases hn
    obtain ⟨w, hw, hv⟩ := narrow_of_range hr.1 hr.2
    rw [hn] at hw
    cases hw
    exact ⟨hv, hr⟩

theorem checked_of_range {m : Mnemonic} {f : Word → Word → Int} {x y : Word} (h1 : wMin ≤ f x y) (h2 : f x y ≤ wMax) :
    ∃ r, checked m f x y = .ok r ∧ r.toInt = f x y := by
  obtain ⟨w, hw, hv⟩ := narrow_of_range h1 h2
  exact ⟨w, by simp [checked, hw], hv⟩

theorem checked_of_overflow {m : Mnemonic} {f : Word → Word → Int} {x y : Word} (h : f x y < wMin ∨ wMax < f x y) :
    checked m f x y = .error (.overflow m.code x y) := by
  simp [checked, narrow_eq_none.2 h]

/-- How an instruction that completes changes the state, by kind (R89): the state before the advance, then the new
`ip`. -/
inductive Completes (i : Instr) (s t : State) : Prop where
  | result (p : Nat) (r : Word) (kind : i.isF3 = true) (target : s.core.Targets 3 p)
      (eq : t = (s.writeMem p r).retireNext i.mnemonic i.modeWord)
  | input (n p : Nat) (v : Word) (rest : List Word) (kind : i = .store n) (target : s.core.Targets 1 p)
      (head : s.inputQueue = v :: rest) (eq : t = (s.inPop.writeMem p v).retireNext i.mnemonic i.modeWord)
  | output (a : Mode) (n : Nat) (x : Word) (kind : i = .output a n) (value : s.core.Reads 1 a x)
      (eq : t = (s.outPush x).retireNext i.mnemonic i.modeWord)
  | jump (b : Mode) (y : Word) (kind : i.targetMode = some b) (value : s.core.Reads 2 b y) (taken : i.Taken s.core)
      (eq : t = s.retire i.mnemonic i.modeWord y)
  | fallThrough (b : Mode) (kind : i.targetMode = some b) (notTaken : ¬ i.Taken s.core)
      (eq : t = s.retireNext i.mnemonic i.modeWord)
  | halt (n : Nat) (kind : i = .halt n) (eq : t = (s.retireNext i.mnemonic i.modeWord).setHalted)

/-! What every completion does, whatever its kind. -/

/-- A completion logs its one record (R91). -/
theorem Completes.logged {i : Instr} {s t : State} (h : Completes i s t) : s.Logged t i := by
  cases h with
  | result p r _ _ eq => subst eq; rfl
  | input n p v rest _ _ _ eq => subst eq; rfl
  | output a n x _ _ eq => subst eq; rfl
  | jump b y _ _ _ eq => subst eq; rfl
  | fallThrough b _ _ eq => subst eq; rfl
  | halt n _ eq => subst eq; rfl

theorem Completes.trace_ne {i : Instr} {s t : State} (h : Completes i s t) : t.core.trace ≠ s.core.trace := by
  have hl := h.logged
  rw [State.Logged] at hl
  rw [hl]
  simp

/-- Only a halt changes the status, to Halted (R92, R152). -/
theorem Completes.status {i : Instr} {s t : State} (h : Completes i s t) :
    t.core.status = if i.mnemonic = .halt then .halted else s.core.status := by
  cases h with
  | result p r kind _ eq => subst eq; cases i <;> simp_all [Instr.isF3, Instr.mnemonic]
  | input n p v rest kind _ _ eq => subst eq kind; simp [Instr.mnemonic]
  | output a n x kind _ eq => subst eq kind; simp [Instr.mnemonic]
  | jump b y kind _ _ eq => subst eq; cases i <;> simp_all [Instr.targetMode, Instr.mnemonic]
  | fallThrough b kind _ eq => subst eq; cases i <;> simp_all [Instr.targetMode, Instr.mnemonic]
  | halt n kind eq => subst eq kind; simp [Instr.mnemonic]

theorem Completes.fault {i : Instr} {s t : State} (h : Completes i s t) : t.core.fault = s.core.fault := by
  cases h with
  | result p r _ _ eq => subst eq; rfl
  | input n p v rest _ _ _ eq => subst eq; rfl
  | output a n x _ _ eq => subst eq; rfl
  | jump b y _ _ _ eq => subst eq; rfl
  | fallThrough b _ _ eq => subst eq; rfl
  | halt n _ eq => subst eq; rfl

theorem Completes.not_faulted {i : Instr} {s t : State} (h : Completes i s t) (hs : s.core.status = .running) :
    t.core.status ≠ .faulted := by
  rw [h.status, hs]
  split <;> simp

/-- What `exec` can do, for every instruction: enter a fault, hold at a store, or complete. -/
theorem exec_cases {i : Instr} {s t : State} (h : exec i s = .next t) :
    (∃ e, t = s.raise e) ∨
      (t = s ∧ s.inputQueue = [] ∧ ∃ n p, i = .store n ∧ s.core.Targets 1 p) ∨ Completes i s t := by
  cases i with
  | add a b n =>
    rcases execF3_cases h with h | ⟨x, y, p, r, _, _, hp, _, rfl⟩
    exacts [.inl h, .inr (.inr (.result p r rfl hp rfl))]
  | multiply a b n =>
    rcases execF3_cases h with h | ⟨x, y, p, r, _, _, hp, _, rfl⟩
    exacts [.inl h, .inr (.inr (.result p r rfl hp rfl))]
  | lessThan a b n =>
    rw [exec, execLessThan] at h
    rcases execF3_cases h with h | ⟨x, y, p, r, _, _, hp, _, rfl⟩
    exacts [.inl h, .inr (.inr (.result p r rfl hp rfl))]
  | equals a b n =>
    rw [exec, execEquals] at h
    rcases execF3_cases h with h | ⟨x, y, p, r, _, _, hp, _, rfl⟩
    exacts [.inl h, .inr (.inr (.result p r rfl hp rfl))]
  | store n =>
    rcases execStore_cases h with h | ⟨p, hp, ⟨hq, rfl⟩ | ⟨v, rest, hq, rfl⟩⟩
    exacts [.inl h, .inr (.inl ⟨rfl, hq, n, p, rfl, hp⟩), .inr (.inr (.input n p v rest rfl hp hq rfl))]
  | output a n =>
    rcases execOutput_cases h with h | ⟨x, hx, rfl⟩
    exacts [.inl h, .inr (.inr (.output a n x rfl hx rfl))]
  | jumpIfTrue a b n =>
    rcases execF2_cases h with h | ⟨x, y, hx, hy, ⟨ht, rfl⟩ | ⟨ht, rfl⟩⟩
    · exact .inl h
    · exact .inr (.inr (.jump b y rfl hy ⟨x, hx, by simpa [nonZero] using ht⟩ rfl))
    · refine .inr (.inr (.fallThrough b rfl ?_ rfl))
      rintro ⟨x', hx', hz⟩
      rw [hx'.unique hx] at hz
      exact hz (by simpa [nonZero] using ht)
  | jumpIfFalse a b n =>
    rcases execF2_cases h with h | ⟨x, y, hx, hy, ⟨ht, rfl⟩ | ⟨ht, rfl⟩⟩
    · exact .inl h
    · exact .inr (.inr (.jump b y rfl hy ⟨x, hx, by simpa [nonZero] using ht⟩ rfl))
    · refine .inr (.inr (.fallThrough b rfl ?_ rfl))
      rintro ⟨x', hx', hz⟩
      rw [hx'.unique hx] at hz
      rw [nonZero] at ht
      simp [hz] at ht
  | halt n =>
    cases h
    exact .inr (.inr (.halt n rfl rfl))

/-- `exec` always answers a next state: no instruction's meaning stops the machine. -/
theorem exec_next (i : Instr) (s : State) : ∃ t, exec i s = .next t := by
  have h3 : ∀ m f a b n, ∃ t, execF3 m f a b n s = .next t := by
    intro m f a b n
    rw [execF3]
    split
    · exact ⟨_, rfl⟩
    · split <;> exact ⟨_, rfl⟩
  have h2 : ∀ m f a b n, ∃ t, execF2 m f a b n s = .next t := by
    intro m f a b n
    rw [execF2]
    split
    · exact ⟨_, rfl⟩
    · split <;> exact ⟨_, rfl⟩
  cases i with
  | add a b n => exact h3 _ _ a b n
  | multiply a b n => exact h3 _ _ a b n
  | lessThan a b n => rw [exec, execLessThan]; exact h3 _ _ a b n
  | equals a b n => rw [exec, execEquals]; exact h3 _ _ a b n
  | jumpIfTrue a b n => exact h2 _ _ a b n
  | jumpIfFalse a b n => exact h2 _ _ a b n
  | store n =>
    show ∃ t, execStore n s = .next t
    rw [execStore]
    split
    · exact ⟨_, rfl⟩
    · split <;> exact ⟨_, rfl⟩
  | output a n =>
    show ∃ t, execOutput a n s = .next t
    rw [execOutput]
    split <;> exact ⟨_, rfl⟩
  | halt n => exact ⟨_, rfl⟩

/-- What every meaning leaves alone: the other cores, the agenda, the bindings and the memory's length. -/
theorem exec_frame {i : Instr} {s t : State} (h : exec i s = .next t) :
    t.before = s.before ∧ t.after = s.after ∧ t.agenda = s.agenda ∧ t.core.inQ = s.core.inQ ∧
      t.core.outQ = s.core.outQ ∧ t.core.mem.size = s.core.mem.size := by
  rcases exec_cases h with ⟨e, rfl⟩ | ⟨rfl, _⟩ | hc
  · exact ⟨rfl, rfl, rfl, rfl, rfl, rfl⟩
  · exact ⟨rfl, rfl, rfl, rfl, rfl, rfl⟩
  · cases hc with
    | result p r _ _ eq => subst eq; exact ⟨rfl, rfl, rfl, rfl, rfl, Memory.write_size _ _ _⟩
    | input n p v rest _ _ _ eq => subst eq; exact ⟨rfl, rfl, rfl, rfl, rfl, Memory.write_size _ _ _⟩
    | output a n x _ _ eq => subst eq; exact ⟨rfl, rfl, rfl, rfl, rfl, rfl⟩
    | jump b y _ _ _ eq => subst eq; exact ⟨rfl, rfl, rfl, rfl, rfl, rfl⟩
    | fallThrough b _ _ eq => subst eq; exact ⟨rfl, rfl, rfl, rfl, rfl, rfl⟩
    | halt n _ eq => subst eq; exact ⟨rfl, rfl, rfl, rfl, rfl, rfl⟩

end Sys2Proof.Machine
end

