-- ==== Sys2Proof/Laws/PerInstr.lean ====
section
/-! SUPPORT. Per instruction: the encoded number splits into the row's opcode and the mode word (R51), and it is a
Word exactly when the instruction is well formed (R4). -/

namespace Sys2Proof.Laws.EncodingFields

/-- The two decimal fields of the instruction's word, and its range. -/
def Statement (i : Instr) : Prop :=
  i.wordValue % 100 = i.mnemonic.code ∧ i.wordValue / 100 = i.modeWord ∧
    (i.wellFormed = true ↔ (i.wordValue : Int) ≤ wMax)

theorem of_range {i : Instr} (h : i.wellFormed = true ↔ (i.wordValue : Int) ≤ wMax) : Statement i :=
  ⟨i.wordValue_mod, i.wordValue_div, h⟩

theorem add (a b : Mode) (surplus : Nat) : Statement (.add a b surplus) := of_range (by
  have := a.digit_le; have := b.digit_le
  rw [Instr.wellFormed, decide_eq_true_iff]
  simp only [surplusLimitF3, Instr.wordValue, Instr.mnemonic, Mnemonic.code, Instr.modeWord, modeF3, wMax]
  omega)

theorem multiply (a b : Mode) (surplus : Nat) : Statement (.multiply a b surplus) := of_range (by
  have := a.digit_le; have := b.digit_le
  rw [Instr.wellFormed, decide_eq_true_iff]
  simp only [surplusLimitF3, Instr.wordValue, Instr.mnemonic, Mnemonic.code, Instr.modeWord, modeF3, wMax]
  omega)

theorem store (surplus : Nat) : Statement (.store surplus) := of_range (by
  rw [Instr.wellFormed, decide_eq_true_iff]
  simp only [surplusLimitF1, Instr.wordValue, Instr.mnemonic, Mnemonic.code, Instr.modeWord, modeF1W, wMax]
  omega)

theorem output (a : Mode) (surplus : Nat) : Statement (.output a surplus) := of_range (by
  have := a.digit_le
  rw [Instr.wellFormed, decide_eq_true_iff]
  simp only [surplusLimitF1, Instr.wordValue, Instr.mnemonic, Mnemonic.code, Instr.modeWord, modeF1R, wMax]
  omega)

theorem jumpIfTrue (a b : Mode) (surplus : Nat) : Statement (.jumpIfTrue a b surplus) := of_range (by
  have := a.digit_le; have := b.digit_le
  rw [Instr.wellFormed, decide_eq_true_iff]
  simp only [surplusLimitF2, Instr.wordValue, Instr.mnemonic, Mnemonic.code, Instr.modeWord, modeF2, wMax]
  omega)

theorem jumpIfFalse (a b : Mode) (surplus : Nat) : Statement (.jumpIfFalse a b surplus) := of_range (by
  have := a.digit_le; have := b.digit_le
  rw [Instr.wellFormed, decide_eq_true_iff]
  simp only [surplusLimitF2, Instr.wordValue, Instr.mnemonic, Mnemonic.code, Instr.modeWord, modeF2, wMax]
  omega)

theorem lessThan (a b : Mode) (surplus : Nat) : Statement (.lessThan a b surplus) := of_range (by
  have := a.digit_le; have := b.digit_le
  rw [Instr.wellFormed, decide_eq_true_iff]
  simp only [surplusLimitF3, Instr.wordValue, Instr.mnemonic, Mnemonic.code, Instr.modeWord, modeF3, wMax]
  omega)

theorem equals (a b : Mode) (surplus : Nat) : Statement (.equals a b surplus) := of_range (by
  have := a.digit_le; have := b.digit_le
  rw [Instr.wellFormed, decide_eq_true_iff]
  simp only [surplusLimitF3, Instr.wordValue, Instr.mnemonic, Mnemonic.code, Instr.modeWord, modeF3, wMax]
  omega)

theorem halt (surplus : Nat) : Statement (.halt surplus) := of_range (by
  rw [Instr.wellFormed, decide_eq_true_iff]
  simp only [surplusLimitF0, Instr.wordValue, Instr.mnemonic, Mnemonic.code, Instr.modeWord, wMax]
  omega)

end Sys2Proof.Laws.EncodingFields
end

