-- ==== Sys2Proof/Laws/Step.lean ====
section
/-! SUPPORT. What a core's step and a move of the system can do, each said once. -/

namespace Sys2Proof.Machine

theorem fetch_eq_ok {c : CoreState} {w : Word} : c.fetch = .ok w ↔ c.mem.read c.ip.toInt = some w := by
  rw [CoreState.fetch]
  cases c.mem.read c.ip.toInt <;> simp

theorem fetch_eq_error {c : CoreState} {e : FaultCause} :
    c.fetch = .error e ↔ ¬ c.mem.valid c.ip.toInt ∧ e = .fetch c.ip.toInt := by
  rw [← Memory.read_eq_none, CoreState.fetch]
  cases c.mem.read c.ip.toInt <;> simp [eq_comm]

/-- A step of a Running core runs the instruction its word decodes to (R86). -/
theorem coreStep_of_decode {s : State} {w : Word} {i : Instr} (hs : s.core.status = .running)
    (hw : s.core.mem.read s.core.ip.toInt = some w) (hi : decode w = .ok i) : coreStep s = exec i s := by
  simp [coreStep, hs, fetch_eq_ok.2 hw, hi]

/-- What a core's step can do: a fault at fetch or decode, or the decoded instruction's meaning (R86). -/
theorem coreStep_cases {s t : State} (h : coreStep s = .next t) :
    s.core.status = .running ∧
      ((¬ s.core.mem.valid s.core.ip.toInt ∧ t = s.raise (.fetch s.core.ip.toInt)) ∨
        ∃ w, s.core.mem.read s.core.ip.toInt = some w ∧
          ((∃ e, decode w = .error e ∧ t = s.raise (decodeCause w e)) ∨
            ∃ i, decode w = .ok i ∧ exec i s = .next t)) := by
  rw [coreStep] at h
  cases hs : s.core.status with
  | halted => simp [hs] at h
  | faulted => simp [hs] at h
  | running =>
    refine ⟨rfl, ?_⟩
    cases hf : s.core.fetch with
    | error e =>
      simp only [hs, hf, Host.Outcome.next.injEq] at h
      obtain ⟨hv, rfl⟩ := fetch_eq_error.1 hf
      exact .inl ⟨hv, h.symm⟩
    | ok w =>
      refine .inr ⟨w, fetch_eq_ok.1 hf, ?_⟩
      cases hd : decode w with
      | error e =>
        simp only [hs, hf, hd, Host.Outcome.next.injEq] at h
        exact .inl ⟨e, rfl, h.symm⟩
      | ok i =>
        simp only [hs, hf, hd] at h
        exact .inr ⟨i, rfl, h⟩

/-- A core's step, by what becomes of it: fault entry, the hold, or a completion. -/
theorem coreStep_ends {s t : State} (h : coreStep s = .next t) :
    s.core.status = .running ∧
      ((∃ e, t = s.raise e) ∨
        ∃ w i, s.core.mem.read s.core.ip.toInt = some w ∧ decode w = .ok i ∧
          ((t = s ∧ s.inputQueue = [] ∧ ∃ n p, i = .store n ∧ s.core.Targets 1 p) ∨ Completes i s t)) := by
  obtain ⟨hs, ⟨_, rfl⟩ | ⟨w, hw, ⟨e, _, rfl⟩ | ⟨i, hi, hx⟩⟩⟩ := coreStep_cases h
  · exact ⟨hs, .inl ⟨_, rfl⟩⟩
  · exact ⟨hs, .inl ⟨_, rfl⟩⟩
  · rcases exec_cases hx with he | hc
    · exact ⟨hs, .inl he⟩
    · exact ⟨hs, .inr ⟨w, i, hw, hi, hc⟩⟩

/-- A Running core always has a step; a stopped one never does. -/
theorem coreStep_next_iff {s : State} : (∃ t, coreStep s = .next t) ↔ s.core.status = .running := by
  constructor
  · rintro ⟨t, h⟩; exact (coreStep_cases h).1
  · intro hs
    cases hf : s.core.fetch with
    | error e => exact ⟨s.raise e, by simp [coreStep, hs, hf]⟩
    | ok w =>
      cases hd : decode w with
      | error e => exact ⟨s.raise (decodeCause w e), by simp [coreStep, hs, hf, hd]⟩
      | ok i =>
        obtain ⟨t, ht⟩ := exec_next i s
        exact ⟨t, by simp [coreStep, hs, hf, hd, ht]⟩

theorem coreStep_frame {s t : State} (h : coreStep s = .next t) :
    t.before = s.before ∧ t.after = s.after ∧ t.agenda = s.agenda ∧ t.core.inQ = s.core.inQ ∧
      t.core.outQ = s.core.outQ ∧ t.core.mem.size = s.core.mem.size := by
  obtain ⟨-, ⟨_, rfl⟩ | ⟨w, -, ⟨e, _, rfl⟩ | ⟨i, -, hx⟩⟩⟩ := coreStep_cases h
  · exact ⟨rfl, rfl, rfl, rfl, rfl, rfl⟩
  · exact ⟨rfl, rfl, rfl, rfl, rfl, rfl⟩
  · exact exec_frame hx

theorem step_nil {s : State} (h : s.agenda = []) : step s = coreStep s := by rw [step, h]

theorem step_cons {s : State} {m : Move} {rest : List Move} (h : s.agenda = m :: rest) :
    step s = applyMove m { s with agenda := rest } := by rw [step, h]

/-- The instruction of the next step, if there is one (R86, phases 1 and 2). -/
theorem nextInstr_eq_some {s : State} {i : Instr} :
    s.nextInstr = some i ↔
      s.core.status = .running ∧ ∃ w, s.core.mem.read s.core.ip.toInt = some w ∧ decode w = .ok i := by
  rw [State.nextInstr]
  cases hs : s.core.status <;> simp only [reduceCtorEq, false_and, true_and]
  cases hf : s.core.fetch with
  | error e =>
    simp only [reduceCtorEq, false_iff, not_exists, not_and]
    intro w hw
    rw [fetch_eq_ok.2 hw] at hf
    cases hf
  | ok w =>
    rw [fetch_eq_ok.1 hf]
    cases hd : decode w <;> simp [hd]

/-! The active core is one of the cores; making another active changes nothing. -/

theorem focus_eq_some {s t : State} {k : Nat} :
    s.focus k = some t ↔
      ∃ c, s.cores[k]? = some c ∧
        t = { s with before := s.cores.take k, core := c, after := s.cores.drop (k + 1) } := by
  rw [State.focus]
  cases s.cores[k]? <;> simp [eq_comm]

theorem focus_cores {s t : State} {k : Nat} (h : s.focus k = some t) : t.cores = s.cores := by
  obtain ⟨c, hc, rfl⟩ := focus_eq_some.1 h
  obtain ⟨hk, rfl⟩ := List.getElem?_eq_some_iff.1 hc
  simp [State.cores_eq]

theorem focus_before_length {s t : State} {k : Nat} (h : s.focus k = some t) : t.before.length = k := by
  obtain ⟨c, hc, rfl⟩ := focus_eq_some.1 h
  obtain ⟨hk, rfl⟩ := List.getElem?_eq_some_iff.1 hc
  simp only [List.length_take]
  omega

theorem focus_core {s t : State} {k : Nat} (h : s.focus k = some t) : s.cores[k]? = some t.core := by
  obtain ⟨c, hc, rfl⟩ := focus_eq_some.1 h
  exact hc

theorem focus_queues {s t : State} {k : Nat} (h : s.focus k = some t) : t.queues = s.queues := by
  obtain ⟨c, hc, rfl⟩ := focus_eq_some.1 h
  rfl

theorem focus_agenda {s t : State} {k : Nat} (h : s.focus k = some t) : t.agenda = s.agenda := by
  obtain ⟨c, hc, rfl⟩ := focus_eq_some.1 h
  rfl

theorem focus_isSome {s : State} {k : Nat} (h : k < s.cores.length) : ∃ t, s.focus k = some t :=
  ⟨_, focus_eq_some.2 ⟨_, List.getElem?_eq_getElem h, rfl⟩⟩

/-- Replacing the active core replaces one element of the cores. -/
theorem setCore_cores (s : State) (c : CoreState) : (s.setCore c).cores = s.cores.set s.before.length c := by
  simp [State.cores_eq]

/-! Which queue ends the cores drive (R182). -/

theorem producesInto_iff {s : State} {q : Nat} : s.producesInto q = true ↔ ∃ c ∈ s.cores, c.outQ = q := by
  simp only [State.producesInto, List.any_eq_true, beq_iff_eq]

theorem consumesFrom_iff {s : State} {q : Nat} : s.consumesFrom q = true ↔ ∃ c ∈ s.cores, c.inQ = q := by
  simp only [State.consumesFrom, List.any_eq_true, beq_iff_eq]

theorem notStarted_iff {c : CoreState} : c.notStarted = true ↔ c.status = .running ∧ c.trace = [] := by
  simp only [CoreState.notStarted, Bool.and_eq_true, beq_iff_eq, List.isEmpty_iff]

theorem hostMayPush_iff {s : State} {q : Nat} :
    s.hostMayPush q = true ↔
      (∀ c ∈ s.cores, c.outQ ≠ q) ∨
        (∃ c ∈ s.cores, c.inQ = q) ∧ ∀ c ∈ s.cores, c.status = .running ∧ c.trace = [] := by
  simp only [State.hostMayPush, Bool.or_eq_true, Bool.and_eq_true, Bool.not_eq_true', ← Bool.not_eq_true,
    producesInto_iff, consumesFrom_iff, List.all_eq_true, notStarted_iff, not_exists, not_and]

/-- Accepting a fresh core: the image is legal, the wiring is legal, and nothing changes. -/
theorem install_eq_next {s t : State} {image : List Word} :
    install s image = .next t ↔ image.length ≤ Config.maxMemory ∧ s.wiringOk ∧ t = s := by
  rw [install]
  split_ifs with h1 h2
  · simp; omega
  · simp only [Host.Outcome.next.injEq]
    exact ⟨fun h => ⟨by omega, h2, h.symm⟩, fun h => h.2.2.symm⟩
  · simp [h2]

end Sys2Proof.Machine
end

