-- ==== Sys2Proof/Tests/Slice0.lean ====
section
/-! SUPPORT. Tests: the smoke test of WellFormed, words written out from the spec's encodings, the spec's own vectors
as single steps (`95_test_vectors.md`, cited by their ids), and a witness for the hypotheses of each statement. -/

namespace Sys2Proof.Tests

open Sys2Proof.Machine

/-! Small states. -/

/-- Integers as Words. -/
def words (l : List Int) : List Word := l.map (BitVec.ofInt 64)

/-- One core in its reset state with the given image and start position, input queue 0 holding `input`, output
queue 1. -/
def boot (image input : List Int) (start : Int := 0) : State :=
  { before := []
    core := CoreState.reset (words image) (BitVec.ofInt 64 start) 0 1
    after := []
    queues := Sparse.put [] 0 (words input) []
    agenda := [] }

/-- Core 0 with image `p` from queue 0 to queue 1, core 1 with image `q` from queue 1 to queue 2; `moves` to come. -/
def pair (p q : List Int) (moves : List Move) : State :=
  { before := []
    core := CoreState.reset (words p) 0 0 1
    after := [CoreState.reset (words q) 0 1 2]
    queues := []
    agenda := moves }

/-- The next state, if that is the outcome. -/
def answer : Host.Outcome State Fault Refusal → Option State
  | .next t => some t
  | .fault _ => none
  | .refused _ => none

/-- The refusal, if that is the outcome. -/
def refusal : Host.Outcome State Fault Refusal → Option Refusal
  | .next _ => none
  | .fault _ => none
  | .refused r => some r

/-- Every cell of the active core's memory. -/
def cells (s : State) : List Int := (List.range s.core.mem.size).map fun a => ((s.core.mem.read a).getD 0).toInt

/-- `ip`, memory and the newest trace record's mode word after one step. -/
def after (s : State) : Option (Int × List Int × Option Nat) :=
  (answer (step s)).map fun t => (t.core.ip.toInt, cells t, t.core.trace.getLast?.map TraceRecord.mode)

/-- The cause recorded by a step that faults. -/
def causeOf (s : State) : Option FaultCause := (answer (step s)).bind fun t => t.core.fault.map FaultRecord.cause

/-! WellFormed: a surplus one too great is refused, for every row; the greatest is accepted. The bounds are worked out
from `WMAX = 9223372036854775807` and the digit patterns of R57. -/

theorem test_wellFormed_add : (Instr.add .position .position 92233720368548).wellFormed = false := by decide
theorem test_wellFormed_multiply : (Instr.multiply .position .position 92233720368548).wellFormed = false := by decide
theorem test_wellFormed_lessThan : (Instr.lessThan .position .position 92233720368548).wellFormed = false := by decide
theorem test_wellFormed_equals : (Instr.equals .position .position 92233720368548).wellFormed = false := by decide
theorem test_wellFormed_jumpIfTrue : (Instr.jumpIfTrue .position .position 922337203685478).wellFormed = false := by decide
theorem test_wellFormed_jumpIfFalse : (Instr.jumpIfFalse .position .position 922337203685478).wellFormed = false := by decide
theorem test_wellFormed_store : (Instr.store 9223372036854776).wellFormed = false := by decide
theorem test_wellFormed_output : (Instr.output .position 9223372036854776).wellFormed = false := by decide
theorem test_wellFormed_halt : (Instr.halt 92233720368547758).wellFormed = false := by decide

theorem test_wellFormed_greatest :
    (Instr.add .immediate .immediate 92233720368547).wellFormed = true ∧
    (Instr.jumpIfTrue .immediate .immediate 922337203685477).wellFormed = true ∧
    (Instr.store 9223372036854775).wellFormed = true ∧ (Instr.halt 92233720368547757).wellFormed = true := by decide

/-! Decode: the words that R100 to R150 list as legal, and those R52 to R60 refuse. -/

/-- What `decode` gives, as an Option. -/
def read (w : Int) : Option Instr := (decode (BitVec.ofInt 64 w)).toOption

/-- The name under which `decode` refuses. -/
def refused (w : Int) : Option DecodeError :=
  match decode (BitVec.ofInt 64 w) with
  | .ok _ => none
  | .error e => some e

theorem test_decode_add : [1, 101, 1001, 1101].map read =
    [some (.add .position .position 0), some (.add .immediate .position 0), some (.add .position .immediate 0),
      some (.add .immediate .immediate 0)] := by decide

theorem test_decode_multiply : [2, 102, 1002, 1102].map read =
    [some (.multiply .position .position 0), some (.multiply .immediate .position 0),
      some (.multiply .position .immediate 0), some (.multiply .immediate .immediate 0)] := by decide

theorem test_decode_store : [3, 1003, 93003].map read = [some (.store 0), some (.store 1), some (.store 93)] := by decide

theorem test_decode_output : [4, 104, 10004, 20104].map read =
    [some (.output .position 0), some (.output .immediate 0), some (.output .position 10),
      some (.output .immediate 20)] := by decide

theorem test_decode_jumpIfTrue : [5, 105, 1005, 91105].map read =
    [some (.jumpIfTrue .position .position 0), some (.jumpIfTrue .immediate .position 0),
      some (.jumpIfTrue .position .immediate 0), some (.jumpIfTrue .immediate .immediate 9)] := by decide

theorem test_decode_jumpIfFalse : [6, 106, 1006, 10006].map read =
    [some (.jumpIfFalse .position .position 0), some (.jumpIfFalse .immediate .position 0),
      some (.jumpIfFalse .position .immediate 0), some (.jumpIfFalse .position .position 1)] := by decide

theorem test_decode_lessThan : [7, 107, 1007, 1107].map read =
    [some (.lessThan .position .position 0), some (.lessThan .immediate .position 0),
      some (.lessThan .position .immediate 0), some (.lessThan .immediate .immediate 0)] := by decide

theorem test_decode_equals : [8, 108, 1008, 501108].map read =
    [some (.equals .position .position 0), some (.equals .immediate .position 0),
      some (.equals .position .immediate 0), some (.equals .immediate .immediate 5)] := by decide

theorem test_decode_halt : [99, 199, 1099, 12399].map read =
    [some (.halt 0), some (.halt 1), some (.halt 10), some (.halt 123)] := by decide

/-- R52, R59, and E7 to E15. -/
theorem test_decode_refuses_opcodes : [-1, -99, 0, 9, 109, 98, 100, 12345].map refused =
    [some .negativeWord, some .negativeWord, some (.unknownOpcode 0), some (.unknownOpcode 9),
      some (.unknownOpcode 9), some (.unknownOpcode 98), some (.unknownOpcode 0), some (.unknownOpcode 45)] := by
  decide

/-- R54, R58, and E2, E3, E4, E10, F1, F2, F3: every ModeError, lowest parameter first, comes before
ImmediateWriteTarget. -/
theorem test_decode_refuses_modes : [11101, 201, 103, 203, 20201, 10001, 12001, 2105, 10207].map refused =
    [some (.immediateWriteTarget 3), some (.modeError 1 2), some (.immediateWriteTarget 1), some (.modeError 1 2),
      some (.modeError 1 2), some (.immediateWriteTarget 3), some (.modeError 2 2), some (.modeError 2 2),
      some (.modeError 1 2)] := by decide

/-- R63: `multiply [24], #-1, [24]` assembles to `1002, 24, -1, 24`. -/
theorem test_assemble : assemble (.multiply .position .immediate 0) (words [24, -1, 24]) = words [1002, 24, -1, 24] := by
  decide

/-! One step of each instruction. -/

/-- O6: sources and target the same cell. -/
theorem test_add_same_cell : after (boot [1, 5, 5, 5, 99, 21] []) = some (4, [1, 5, 5, 5, 99, 42], some 0) := by decide

/-- A1, A3: overflow at both ends. -/
theorem test_add_overflow :
    causeOf (boot [1101, 9223372036854775807, 1, 5, 99, 0] []) = some (.overflow 1 9223372036854775807 1) ∧
    causeOf (boot [1101, -9223372036854775808, -1, 5, 99, 0] []) =
      some (.overflow 1 (BitVec.ofInt 64 (-9223372036854775808)) (BitVec.ofInt 64 (-1))) := by decide

/-- E1 and A9: mixed modes, and a product that is exactly `WMIN`. -/
theorem test_multiply : after (boot [1002, 4, 3, 4, 33] []) = some (4, [1002, 4, 3, 4, 99], some 10) ∧
    after (boot [1102, -4294967296, 2147483648, 5, 99, 0] []) =
      some (4, [1102, -4294967296, 2147483648, 5, 99, -9223372036854775808], some 11) := by decide

/-- A7: `WMIN * -1`. -/
theorem test_multiply_overflow : causeOf (boot [1102, -9223372036854775808, -1, 5, 99, 0] []) =
    some (.overflow 2 (BitVec.ofInt 64 (-9223372036854775808)) (BitVec.ofInt 64 (-1))) := by decide

/-- S5 and E6: the store overwrites its own word; surplus digits stay in the traced mode word. -/
theorem test_store : after (boot [3, 0, 4, 0, 99] [7]) = some (2, [7, 0, 4, 0, 99], some 0) ∧
    after (boot [1003, 3, 99, 0] [5]) = some (2, [1003, 3, 99, 5], some 10) := by decide

/-- S5 with an empty queue: the step changes nothing and the core is blocked. -/
theorem test_store_hold : answer (step (boot [3, 0, 4, 0, 99] [])) = some (boot [3, 0, 4, 0, 99] []) ∧
    (boot [3, 0, 4, 0, 99] []).blocked = true := by decide

/-- E17 and O5: position mode under surplus digits; a negative literal. -/
theorem test_output :
    (answer (step (boot [10004, 2, 99] []))).map (fun t => t.queue 1) = some [99] ∧
    (answer (step (boot [104, -7, 99] []))).map (fun t => t.queue 1) = some (words [-7]) := by decide

/-- I4: a one-core loop pushes onto its own input queue. -/
theorem test_output_loop :
    (answer (step { boot [104, 9, 3, 7, 4, 7, 99, 0] [] with core := CoreState.reset (words [104, 9, 3, 7, 4, 7, 99, 0]) 0 0 0 })).map
      (fun t => t.inputQueue) = some [9] := by decide

/-- J2 and J5: a negative value is true; a jump through a variable. -/
theorem test_jumpIfTrue_taken : after (boot [1105, -1, 4, 99, 99] []) = some (4, [1105, -1, 4, 99, 99], some 11) ∧
    after (boot [105, 1, 4, 99, 3] []) = some (3, [105, 1, 4, 99, 3], some 1) := by decide

/-- J3 and F9: not taken; both operands are resolved even then. -/
theorem test_jumpIfTrue_not_taken : after (boot [1105, 0, 4, 99, 99] []) = some (3, [1105, 0, 4, 99, 99], some 11) ∧
    causeOf (boot [5, 3, 77, 0] []) = some (.pointer 2 77) := by decide

/-- R121, corner cases: `jump-if-false #0, #t` is an unconditional jump; J7's negative target is loaded. -/
theorem test_jumpIfFalse_taken : after (boot [1106, 0, 4, 99, 99] []) = some (4, [1106, 0, 4, 99, 99], some 11) ∧
    after (boot [1106, 0, -5, 99] []) = some (-5, [1106, 0, -5, 99], some 11) := by decide

/-- S6 (b): not taken. -/
theorem test_jumpIfFalse_not_taken : after (boot [1106, 1, 0, 99] []) = some (3, [1106, 1, 0, 99], some 11) := by decide

/-- C2, C3, C4. -/
theorem test_lessThan : after (boot [1107, 8, 8, 5, 99, -1] []) = some (4, [1107, 8, 8, 5, 99, 0], some 11) ∧
    after (boot [1107, -1, 0, 5, 99, -1] []) = some (4, [1107, -1, 0, 5, 99, 1], some 11) := by decide

/-- C5: right at the extremes. -/
theorem test_lessThan_extremes :
    after (boot [1107, 9223372036854775807, -9223372036854775808, 5, 99, -1] []) =
      some (4, [1107, 9223372036854775807, -9223372036854775808, 5, 99, 0], some 11) := by decide

/-- C8 and C9. -/
theorem test_equals : after (boot [1108, -1, 1, 5, 99, -1] []) = some (4, [1108, -1, 1, 5, 99, 0], some 11) ∧
    after (boot [8, 4, 4, 5, 99, -1] []) = some (4, [8, 4, 4, 5, 99, 1], some 0) := by decide

/-- H1 and E13: halt in the last cell; the traced mode word keeps the surplus digit. -/
theorem test_halt : (answer (step (boot [199] []))).map (fun t => (t.core.status, t.core.ip, t.core.trace)) =
    some (.halted, 1, [⟨0, 99, 1, .halt⟩]) := by decide

/-! Faults. -/

/-- S7's and H4 to H6's fetch faults: past the end, an empty image, a negative start. -/
theorem test_fetch_faults :
    [boot [2, 0, 0, 0] [] 4, boot [99] [] 1, boot [] [], boot [99] [] (-1)].map causeOf =
      [some (.fetch 4), some (.fetch 1), some (.fetch 0), some (.fetch (-1))] := by decide

/-- S8, F4 to F8, O1, O3: slot before pointer, left to right, before a store looks at its queue. -/
theorem test_operand_faults :
    [boot [1, 0, 0, 99] [], boot [1] [], boot [1, 0, 0] [], boot [1, 7, 0] [], boot [3, 50] [], boot [3] [],
      boot [4, 3, 99] [], boot [4, -1, 99] []].map causeOf =
      [some (.pointer 3 99), some (.slot 1 1), some (.slot 3 3), some (.pointer 1 7), some (.pointer 1 50),
        some (.slot 1 1), some (.pointer 1 3), some (.pointer 1 (-1))] := by decide

/-- E4, E5: the fault entry leaves the input queue, memory and `ip`; the core does not block. -/
theorem test_fault_entry : answer (step (boot [103, 0, 99] [5])) =
    some ((boot [103, 0, 99] [5]).faultedWith (.immediateWriteTarget 1)) := by decide

/-! The system. -/

/-- P7, first move: core 0 outputs 5 into core 1's input queue. -/
theorem test_core_step : (answer (step (pair [104, 5, 0] [3, 5, 3, 5, 99, 0] [.coreStep 0, .coreStep 1]))).map
    (fun t => (t.queue 1, t.agenda, t.cores.map CoreState.ip)) = some ([5], [.coreStep 1], [2, 0]) := by decide

/-- P7 before core 0 runs: core 1 is blocked, and its step changes nothing but the agenda. -/
theorem test_blocked_core : (answer (step (pair [104, 5, 0] [3, 5, 3, 5, 99, 0] [.coreStep 1]))).map State.cores =
    some (pair [104, 5, 0] [3, 5, 3, 5, 99, 0] []).cores := by decide

/-- R182: a second producer is refused. R205: so is a host pop at a queue a core consumes, and a host push, even before
any core runs, at a queue that a core produces into and no core consumes (R183). -/
theorem test_refusals :
    refusal (step (pair [99] [99] [.construct [] 0 7 1])) = some .sharedQueueEnd ∧
    refusal (step (pair [99] [99] [.hostPop 1])) = some .hostInterference ∧
    refusal (step (pair [99] [99] [.hostPush 2 4])) = some .hostInterference ∧
    refusal (step (pair [99] [99] [.coreStep 2])) = some .noSuchCore := by decide

/-- R183: seeding before any core runs, onto a queue that a core produces into. -/
theorem test_seed : (answer (step (pair [99] [99] [.hostPush 1 4]))).map (fun t => t.queue 1) = some [4] := by decide

/-- R200, H3: a reset with a start position. -/
theorem test_reset : (answer (step { boot [1, 2] [6] with agenda := [.reset 0 (words [0, 0, 99]) 2 0 3] })).map
    (fun t => (cells t, t.core.ip, t.core.outQ, t.queue 0)) = some ([0, 0, 99], 2, 3, [6]) := by decide

/-! `withFetchWord`. -/

/-- The four cells of `[1101, 3, 4, 5]`: each is one Word, the first lowest. The target, index 5, is outside the four
cells, so the fault tells that the parameters stand where the step reads them. -/
theorem test_withFetchWord_parameters :
    causeOf (State.reset.withFetchWord 256 (1101 + 3 * 2 ^ 64 + 4 * 2 ^ 128 + 5 * 2 ^ 192)) = some (.pointer 3 5) := by
  decide

/-- The bare word of `add`: operand words of zeros. -/
theorem test_withFetchWord_add : after (State.reset.withFetchWord 64 1) = some (4, [2, 0, 0, 0], some 0) := by decide

/-! Witnesses: for each statement with hypotheses, concrete data that meet all of them together, clause by clause and at
the boundary values. -/

/-- The premises that the statements about F3 instructions share. -/
def F3Premises (s : State) (a b : Mode) (x y : Word) (p : Nat) : Prop :=
  s.core.mem.wf ∧ s.core.Reads 1 a x ∧ s.core.Reads 2 b y ∧ s.core.Targets 3 p

theorem f3Premises {s : State} {a b : Mode} {x y : Word} {p : Nat} (hw : s.core.mem.wf)
    (h : (resolveF3 s.core a b).toOption = some (x, y, p)) : F3Premises s a b x y p := by
  cases hr : resolveF3 s.core a b with
  | error e => simp [hr, Except.toOption] at h
  | ok v =>
    rw [hr] at h
    cases h
    exact ⟨hw, resolveF3_ok.1 hr⟩

/-- The premises that the statements about jumps share. -/
def F2Premises (s : State) (a b : Mode) (x y : Word) : Prop :=
  s.core.mem.wf ∧ s.core.Reads 1 a x ∧ s.core.Reads 2 b y

theorem f2Premises {s : State} {a b : Mode} {x y : Word} (hw : s.core.mem.wf)
    (h : (resolveF2 s.core a b).toOption = some (x, y)) : F2Premises s a b x y := by
  cases hr : resolveF2 s.core a b with
  | error e => simp [hr, Except.toOption] at h
  | ok v =>
    rw [hr] at h
    cases h
    exact ⟨hw, resolveF2_ok.1 hr⟩

theorem targets {c : CoreState} {k p : Nat} (h : (resolveTarget c k).toOption = some p) : c.Targets k p := by
  cases hr : resolveTarget c k with
  | error e => simp [hr, Except.toOption] at h
  | ok v => rw [hr] at h; cases h; exact targets_of_resolveTarget hr

theorem reads {c : CoreState} {k : Nat} {d : Mode} {x : Word} (h : (resolve c k d).toOption.map Operand.value = some x) :
    c.Reads k d x := by
  cases hr : resolve c k d with
  | error e => simp [hr, Except.toOption] at h
  | ok v => rw [hr] at h; cases h; exact reads_of_resolve hr

/-- A word of each class: negative; unknown opcodes next to the known ones; a ModeError on the first and on the last
parameter; an immediate write target; a legal word. -/
theorem witness_DecodeClassifiesEveryWord :
    (BitVec.ofInt 64 (-1)).toInt < 0 ∧
    ((BitVec.ofInt 64 9 : Word).toInt = (9 : Nat) ∧ ∀ m : Mnemonic, m.code ≠ 9 % 100) ∧
    ((BitVec.ofInt 64 98 : Word).toInt = (98 : Nat) ∧ ∀ m : Mnemonic, m.code ≠ 98 % 100) ∧
    (Mnemonic.add.code = 90001 % 100 ∧ 3 ≤ Mnemonic.add.params ∧ 2 ≤ digit (90001 / 100) 2 ∧
      digit (90001 / 100) 0 < 2 ∧ digit (90001 / 100) 1 < 2) ∧
    (Mnemonic.output.code = 204 % 100 ∧ 1 ≤ Mnemonic.output.params ∧ 2 ≤ digit (204 / 100) 0) ∧
    (Mnemonic.store.code = 103 % 100 ∧ Mnemonic.store.writeTarget = some 1 ∧ digit (103 / 100) 0 = 1) ∧
    (Mnemonic.equals.code = 1108 % 100 ∧ Mnemonic.equals.writeTarget = some 3 ∧ digit (1108 / 100) 2 = 0 ∧
      digit (1108 / 100) 0 < 2 ∧ digit (1108 / 100) 1 < 2) := by
  refine ⟨by decide, ⟨by decide, fun m => ?_⟩, ⟨by decide, fun m => ?_⟩, by decide, by decide, by decide, by decide⟩ <;>
    cases m <;> decide

theorem witness_DecodeEncodeRoundTrip : (Instr.add .immediate .position 92233720368547).wellFormed = true := by decide

theorem witness_EncodeDecodeRoundTrip : (decode 9223372036854775799).toOption = some (.halt 92233720368547757) := by
  decide

/-- E16's word and the word without surplus digits. -/
theorem witness_SurplusDigitsHaveNoEffect :
    decode 104 = .ok (.output .immediate 0) ∧ 0 ≤ (20104 : Word).toInt ∧
    (20104 : Word).toInt.toNat % 10 ^ (2 + (Instr.output .immediate 0).mnemonic.params) =
      (104 : Word).toInt.toNat % 10 ^ (2 + (Instr.output .immediate 0).mnemonic.params) :=
  ⟨rfl, by decide, by decide⟩

/-- The slot just past memory; an immediate in the last cell; pointers -1, `N`, 0 and `N - 1`. -/
theorem witness_ParameterResolution :
    (0 ≤ (boot [4] []).core.ip.toInt ∧ ((boot [4] []).core.mem.size : Int) ≤ (boot [4] []).core.ip.toInt + 1) ∧
    (boot [104, 9] []).core.mem.read ((boot [104, 9] []).core.ip.toInt + 1) = some 9 ∧
    ((boot [4, -1] []).core.mem.read ((boot [4, -1] []).core.ip.toInt + 1) = some (BitVec.ofInt 64 (-1)) ∧
      (BitVec.ofInt 64 (-1)).toInt < 0) ∧
    ((boot [4, 2] []).core.mem.read ((boot [4, 2] []).core.ip.toInt + 1) = some 2 ∧
      ((boot [4, 2] []).core.mem.size : Int) ≤ (2 : Word).toInt) ∧
    ((boot [4, 0] []).core.mem.read ((boot [4, 0] []).core.ip.toInt + 1) = some 0 ∧
      (0 : Word).toInt < (boot [4, 0] []).core.mem.size) ∧
    ((boot [4, 1] []).core.mem.read ((boot [4, 1] []).core.ip.toInt + 1) = some 1 ∧
      (1 : Word).toInt < (boot [4, 1] []).core.mem.size) := by decide

/-- The first and the last of three parameters. -/
theorem witness_FirstFaultingParameterEndsTheStep :
    ((Instr.add .position .position 0).paramModes[0]? = some .position ∧
      resolve (boot [1, 7, 0] []).core 1 .position = .error (.pointer 1 7)) ∧
    ((Instr.add .position .position 0).paramModes[2]? = some .position ∧
      (∀ j d, j < 2 → (Instr.add .position .position 0).paramModes[j]? = some d →
        ∃ p, resolve (boot [1, 0, 0] []).core (j + 1) d = .ok p) ∧
      resolve (boot [1, 0, 0] []).core 3 .position = .error (.slot 3 3)) := by
  refine ⟨⟨rfl, rfl⟩, rfl, fun j d hj hd => ?_, rfl⟩
  rcases j with _ | _ | j
  · cases hd; exact ⟨_, rfl⟩
  · cases hd; exact ⟨_, rfl⟩
  · omega

theorem witness_IndexReadableExactlyInRange :
    ((0 : Int) ≤ 0 ∧ (0 : Int) < (boot [3, 0] []).core.mem.size) ∧
    ((0 : Int) ≤ 1 ∧ (1 : Int) < (boot [3, 0] []).core.mem.size) ∧ (-1 : Int) < 0 ∧
    ((boot [3, 0] []).core.mem.size : Int) ≤ 2 := by decide

theorem witness_ReadAfterWrite :
    (boot [3, 0] []).core.mem.wf ∧ 0 < (boot [3, 0] []).core.mem.size ∧ 1 < (boot [3, 0] []).core.mem.size := by decide

/-- Two memories written in different orders. -/
theorem witness_MemoriesThatReadAlikeAreEqual :
    ∃ m n : Memory, m = ((Memory.ofImage (words [0, 0])).write 0 5).write 1 6 ∧
      n = ((Memory.ofImage (words [0, 0])).write 1 6).write 0 5 ∧ m.wf ∧ n.wf ∧ m.size = n.size ∧
      ∀ a : Int, m.read a = n.read a :=
  ⟨_, _, rfl, rfl, by decide, by decide, rfl, fun _ => rfl⟩

/-- The greatest sum, the least sum, and one beyond either. -/
theorem witness_AddStoresExactSumOrOverflows :
    (F3Premises (boot [1101, 9223372036854775806, 1, 5, 99, 0] []) .immediate .immediate 9223372036854775806 1 5 ∧
      (9223372036854775806 : Word).toInt + (1 : Word).toInt = wMax) ∧
    (F3Premises (boot [101, -9223372036854775808, 4, 5, 0, 0] []) .immediate .position
        (BitVec.ofInt 64 (-9223372036854775808)) 0 5 ∧
      (BitVec.ofInt 64 (-9223372036854775808)).toInt + (0 : Word).toInt = wMin) ∧
    (F3Premises (boot [1101, 9223372036854775807, 1, 5, 99, 0] []) .immediate .immediate 9223372036854775807 1 5 ∧
      wMax < (9223372036854775807 : Word).toInt + (1 : Word).toInt) ∧
    (F3Premises (boot [1101, -9223372036854775808, -1, 5, 99, 0] []) .immediate .immediate
        (BitVec.ofInt 64 (-9223372036854775808)) (BitVec.ofInt 64 (-1)) 5 ∧
      (BitVec.ofInt 64 (-9223372036854775808)).toInt + (BitVec.ofInt 64 (-1)).toInt < wMin) := by
  refine ⟨⟨f3Premises ?_ ?_, ?_⟩, ⟨f3Premises ?_ ?_, ?_⟩, ⟨f3Premises ?_ ?_, ?_⟩, ⟨f3Premises ?_ ?_, ?_⟩⟩ <;> decide

/-- Exactly `WMIN`, a product in between, and `2^63`. -/
theorem witness_MultiplyStoresExactProductOrOverflows :
    (F3Premises (boot [1102, -4294967296, 2147483648, 5, 99, 0] []) .immediate .immediate
        (BitVec.ofInt 64 (-4294967296)) 2147483648 5 ∧
      (BitVec.ofInt 64 (-4294967296)).toInt * (2147483648 : Word).toInt = wMin) ∧
    (F3Premises (boot [2, 4, 4, 5, 99, 0] []) .position .position 99 99 5 ∧
      wMin ≤ (99 : Word).toInt * (99 : Word).toInt ∧ (99 : Word).toInt * (99 : Word).toInt ≤ wMax) ∧
    (F3Premises (boot [1102, 4294967296, 2147483648, 5, 99, 0] []) .immediate .immediate 4294967296 2147483648 5 ∧
      wMax < (4294967296 : Word).toInt * (2147483648 : Word).toInt) ∧
    (F3Premises (boot [1102, -3037000500, 3037000500, 5, 99, 0] []) .immediate .immediate
        (BitVec.ofInt 64 (-3037000500)) 3037000500 5 ∧
      (BitVec.ofInt 64 (-3037000500)).toInt * (3037000500 : Word).toInt < wMin) := by
  refine ⟨⟨f3Premises ?_ ?_, ?_⟩, ⟨f3Premises ?_ ?_, ?_⟩, ⟨f3Premises ?_ ?_, ?_⟩, ⟨f3Premises ?_ ?_, ?_⟩⟩ <;> decide

/-- Less, and equal (the boundary of not less). -/
theorem witness_LessThanStoresComparison :
    (F3Premises (boot [1107, 7, 8, 5, 99, -1] []) .immediate .immediate 7 8 5 ∧ (7 : Word).toInt < (8 : Word).toInt) ∧
    (F3Premises (boot [7, 4, 4, 5, 99, -1] []) .position .position 99 99 5 ∧ (99 : Word).toInt ≤ (99 : Word).toInt) := by
  refine ⟨⟨f3Premises ?_ ?_, ?_⟩, ⟨f3Premises ?_ ?_, ?_⟩⟩ <;> decide

theorem witness_EqualsStoresComparison :
    (F3Premises (boot [8, 4, 4, 5, 99, -1] []) .position .position 99 99 5 ∧ (99 : Word).toInt = (99 : Word).toInt) ∧
    (F3Premises (boot [1108, -1, 1, 5, 99, -1] []) .immediate .immediate (BitVec.ofInt 64 (-1)) 1 5 ∧
      (BitVec.ofInt 64 (-1)).toInt ≠ (1 : Word).toInt) := by
  refine ⟨⟨f3Premises ?_ ?_, ?_⟩, ⟨f3Premises ?_ ?_, ?_⟩⟩ <;> decide

/-- Targets in the first and in the last cell. -/
theorem witness_StoreMovesQueueHeadToTarget :
    ((boot [3, 0] [7]).core.mem.wf ∧ Sparse.wf [] (boot [3, 0] [7]).queues ∧
      (boot [3, 0] [7]).queue (boot [3, 0] [7]).core.inQ = [7]) ∧
    (boot [3, 0] [7]).core.Targets 1 0 ∧ (boot [3, 1] [7]).core.Targets 1 1 := by
  refine ⟨by decide, targets ?_, targets ?_⟩ <;> decide

theorem witness_StoreHoldsOnEmptyQueue :
    (boot [3, 0] []).core.Targets 1 0 ∧ (boot [3, 0] []).queue (boot [3, 0] []).core.inQ = [] :=
  ⟨targets (by decide), by decide⟩

theorem witness_OutputAppendsToOutputQueue :
    ((boot [4, 0] []).core.mem.wf ∧ Sparse.wf [] (boot [4, 0] []).queues) ∧ (boot [4, 0] []).core.Reads 1 .position 4 ∧
    (boot [104, -7] []).core.Reads 1 .immediate (BitVec.ofInt 64 (-7)) := by
  refine ⟨by decide, reads ?_, reads ?_⟩ <;> decide

/-- Zero, one and -1 as the tested value. -/
theorem witness_JumpIfTrueBranches :
    F2Premises (boot [1105, 0, 4] []) .immediate .immediate 0 4 ∧
    F2Premises (boot [1105, 1, 4] []) .immediate .immediate 1 4 ∧
    F2Premises (boot [105, -1, 0] []) .immediate .position (BitVec.ofInt 64 (-1)) 105 := by
  refine ⟨f2Premises ?_ ?_, f2Premises ?_ ?_, f2Premises ?_ ?_⟩ <;> decide

theorem witness_JumpIfFalseBranches :
    F2Premises (boot [1106, 0, 4] []) .immediate .immediate 0 4 ∧
    F2Premises (boot [6, 0, 1] []) .position .position 6 0 := by
  refine ⟨f2Premises ?_ ?_, f2Premises ?_ ?_⟩ <;> decide

/-- Halt in the last cell. -/
theorem witness_HaltStopsTheCore :
    (boot [99] []).core.mem.wf ∧ (boot [99] []).core.mem.valid (boot [99] []).core.ip.toInt := by decide

theorem witness_ComputingInstructionsFrame :
    ∃ s t, s = boot [1, 0, 0, 0, 99] [] ∧ (Instr.add .position .position 0).isF3 = true ∧
      exec (.add .position .position 0) s = .next t ∧ t.core.status = .running ∧ resolveTarget s.core 3 = .ok 0 :=
  ⟨_, _, rfl, rfl, rfl, rfl, rfl⟩

theorem witness_StoreFrame :
    ∃ s t, s = boot [3, 1] [7] ∧ exec (.store 0) s = .next t ∧ t.core.status = .running ∧ t.core.ip = 2 ∧
      resolveTarget s.core 1 = .ok 1 :=
  ⟨_, _, rfl, rfl, rfl, rfl, rfl⟩

theorem witness_OutputJumpHaltFrame :
    ∃ s t, s = boot [104, 5] [] ∧ (Instr.output .immediate 0).isF3 = false ∧
      (∀ n, Instr.output .immediate 0 ≠ .store n) ∧ exec (.output .immediate 0) s = .next t ∧
      t.core.status = .running :=
  ⟨_, _, rfl, rfl, fun _ h => (by cases h), rfl, rfl⟩

theorem witness_StepRunsTheDecodedInstruction :
    (boot [99] []).agenda = [] ∧ (boot [99] []).core.status = .running ∧
    (boot [99] []).core.mem.read (boot [99] []).core.ip.toInt = some 99 ∧ decode 99 = .ok (.halt 0) :=
  ⟨rfl, rfl, rfl, rfl⟩

theorem witness_ScheduledStepIsThatCoresStep :
    ∃ s c, s = pair [104, 5] [99] [.coreStep 1] ∧ s.agenda = [.coreStep 1] ∧ s.cores[1]? = some c :=
  ⟨_, _, rfl, rfl, rfl⟩

/-- `ip` at -1 and at `N`. -/
theorem witness_FetchOutsideMemoryFaults :
    ((boot [99] [] (-1)).core.status = .running ∧ (boot [99] [] (-1)).core.ip.toInt < 0) ∧
    ((boot [99] [] 1).core.status = .running ∧
      ((boot [99] [] 1).core.mem.size : Int) ≤ (boot [99] [] 1).core.ip.toInt) := by decide

/-- One word for each decode fault. -/
theorem witness_DecodeFaultsAreRecorded :
    (boot [-1] []).core.status = .running ∧
    (boot [-1] []).core.mem.read (boot [-1] []).core.ip.toInt = some (BitVec.ofInt 64 (-1)) ∧
    decode (BitVec.ofInt 64 (-1)) = .error .negativeWord ∧
    (boot [9] []).core.mem.read (boot [9] []).core.ip.toInt = some 9 ∧ decode 9 = .error (.unknownOpcode 9) ∧
    (boot [201] []).core.mem.read (boot [201] []).core.ip.toInt = some 201 ∧ decode 201 = .error (.modeError 1 2) ∧
    (boot [103] []).core.mem.read (boot [103] []).core.ip.toInt = some 103 ∧
    decode 103 = .error (.immediateWriteTarget 1) :=
  ⟨rfl, rfl, rfl, rfl, rfl, rfl, rfl, rfl, rfl⟩

theorem witness_FaultEntryChangesNothingElse :
    ∃ s t, s = boot [3, 50] [1] ∧ coreStep s = .next t ∧ t.core.status = .faulted :=
  ⟨_, _, rfl, rfl, rfl⟩

/-- A hold, a fault, a taken jump, and an instruction that advances. -/
theorem witness_HowIpChanges :
    (∃ s t, s = boot [3, 0] [] ∧ s.core.mem.wf ∧ coreStep s = .next t ∧ t = s) ∧
    (∃ s t, s = boot [0] [] ∧ s.core.mem.wf ∧ coreStep s = .next t ∧ t.core.status = .faulted) ∧
    (∃ s t, s = boot [1105, 1, 4] [] ∧ s.core.mem.wf ∧ coreStep s = .next t ∧ t ≠ s ∧ t.core.status ≠ .faulted ∧
      (Instr.jumpIfTrue .immediate .immediate 0).Taken s.core) ∧
    (∃ s t, s = boot [104, 5] [] ∧ s.core.mem.wf ∧ coreStep s = .next t ∧ t ≠ s ∧ t.core.status ≠ .faulted ∧
      ¬ (Instr.output .immediate 0).Taken s.core) :=
  ⟨⟨_, _, rfl, by decide, rfl, rfl⟩, ⟨_, _, rfl, by decide, rfl, rfl⟩,
    ⟨_, _, rfl, by decide, rfl, by decide, by decide, 1, reads (by decide), by decide⟩,
    ⟨_, _, rfl, by decide, rfl, by decide, by decide, id⟩⟩

theorem witness_OneTraceRecordPerCompletedStep :
    ∃ s t, s = boot [104, 5] [] ∧ coreStep s = .next t ∧ t.core.trace.length = 1 :=
  ⟨_, _, rfl, rfl, rfl⟩

theorem witness_OnlyHaltHalts :
    ∃ s t, s = boot [99] [] ∧ coreStep s = .next t ∧ t.core.status = .halted :=
  ⟨_, _, rfl, rfl, rfl⟩

/-- A blocked core; one whose queue holds a value; a bad store word; a bad target, the pointer `N`. -/
theorem witness_BlockedMeansStoreOnEmptyQueue :
    (boot [3, 0] []).blocked = true ∧ (boot [3, 0] [1]).blocked = false ∧
    ((boot [103, 0] []).core.status = .running ∧
      (boot [103, 0] []).core.mem.read (boot [103, 0] []).core.ip.toInt = some 103 ∧
      decode 103 = .error (.immediateWriteTarget 1)) ∧
    ((boot [3, 2] []).core.status = .running ∧
      (boot [3, 2] []).core.mem.read (boot [3, 2] []).core.ip.toInt = some 3 ∧ decode 3 = .ok (.store 0) ∧
      resolve (boot [3, 2] []).core 1 .position = .error (.pointer 1 2)) :=
  ⟨rfl, rfl, ⟨rfl, rfl, rfl⟩, ⟨rfl, rfl, rfl, rfl⟩⟩

theorem witness_StepChangesNothingExactlyWhenBlocked :
    coreStep (boot [3, 0] []) = .next (boot [3, 0] []) ∧ (boot [3, 0] []).blocked = true :=
  ⟨rfl, rfl⟩

/-- A one-core state whose core has the given status. -/
def stoppedWith (st : Status) (moves : List Move) : State :=
  { boot [99] [] with
    core := { (boot [99] []).core with status := st }
    agenda := moves }

theorem witness_StoppedCoreHasNoStep :
    ((stoppedWith .halted []).agenda = [] ∧ (stoppedWith .halted []).core.status = .halted) ∧
    ((stoppedWith .faulted []).agenda = [] ∧ (stoppedWith .faulted []).core.status = .faulted) ∧
    ((stoppedWith .halted [.coreStep 0]).agenda = [.coreStep 0] ∧
      (stoppedWith .halted [.coreStep 0]).cores[0]? = some (stoppedWith .halted []).core) ∧
    ((stoppedWith .faulted [.coreStep 0]).cores[0]? = some (stoppedWith .faulted []).core) :=
  ⟨⟨rfl, rfl⟩, ⟨rfl, rfl⟩, ⟨rfl, rfl⟩, rfl⟩

theorem witness_OnlyResetRevivesAStoppedCore :
    ∃ s t c, s = stoppedWith .halted [.hostPush 0 7] ∧ s.cores[0]? = some c ∧ c.stopped ∧ step s = .next t ∧
      ∀ image startPos inQ outQ, s.agenda.head? ≠ some (.reset 0 image startPos inQ outQ) :=
  ⟨_, _, _, rfl, rfl, .inl rfl, rfl, fun _ _ _ _ h => by cases h⟩

theorem witness_FaultedMemberPreventsCompletion :
    ∃ s t, s = stoppedWith .faulted [.hostPush 0 7] ∧ ¬ s.noFault ∧ step s = .next t ∧
      ∀ k image startPos inQ outQ, s.agenda.head? ≠ some (.reset k image startPos inQ outQ) :=
  ⟨_, _, rfl, fun h => h _ (List.mem_singleton.2 rfl) rfl, rfl, fun _ _ _ _ _ h => by cases h⟩

/-- Two states that differ in the rest of the input queue and in the trace; their queues are canonical. -/
theorem witness_StepDependsOnIpMemoryAndQueueHead :
    ∃ s t, s = boot [3, 0] [7] ∧
      t = { boot [3, 0] [7, 8] with core := { (boot [3, 0] []).core with trace := [⟨5, 5, 0, .jumpIfTrue⟩] } } ∧
      s.core.status = .running ∧ t.core.status = .running ∧ s.core.ip = t.core.ip ∧ s.core.mem = t.core.mem ∧
      (s.queue s.core.inQ).head? = (t.queue t.core.inQ).head? ∧ Sparse.wf [] s.queues ∧ Sparse.wf [] t.queues :=
  ⟨_, _, rfl, rfl, rfl, rfl, rfl, rfl, rfl, by decide, by decide⟩

/-- I2's first step: `store [2]` at 0. -/
theorem witness_StoredWordIsFetchedNext :
    (boot [3, 2, 0] [104]).core.mem.wf ∧ (boot [3, 2, 0] [104]).core.Targets 1 2 ∧
    (boot [3, 2, 0] [104]).queue (boot [3, 2, 0] [104]).core.inQ = [104] ∧
    ((2 : Nat) : Int) = (boot [3, 2, 0] [104]).core.ip.toInt + 2 :=
  ⟨by decide, targets (by decide), by decide, by decide⟩

/-- Targets -1 and `N`, for each jump. -/
theorem witness_BadJumpTargetFaultsAtNextFetch :
    (F2Premises (boot [1105, 1, -1] []) .immediate .immediate 1 (BitVec.ofInt 64 (-1)) ∧
      (BitVec.ofInt 64 (-1)).toInt < 0 ∧ (1 : Word).toInt ≠ 0 ∧ (boot [1105, 1, -1] []).agenda = [] ∧
      (boot [1105, 1, -1] []).core.status = .running) ∧
    (F2Premises (boot [1105, 1, 3] []) .immediate .immediate 1 3 ∧
      ((boot [1105, 1, 3] []).core.mem.size : Int) ≤ (3 : Word).toInt) ∧
    (F2Premises (boot [1106, 0, -1] []) .immediate .immediate 0 (BitVec.ofInt 64 (-1)) ∧ (0 : Word).toInt = 0 ∧
      (boot [1106, 0, -1] []).agenda = [] ∧ (boot [1106, 0, -1] []).core.status = .running) ∧
    (F2Premises (boot [1106, 0, 3] []) .immediate .immediate 0 3 ∧
      ((boot [1106, 0, 3] []).core.mem.size : Int) ≤ (3 : Word).toInt) := by
  refine ⟨⟨f2Premises ?_ ?_, ?_, ?_, ?_, ?_⟩, ⟨f2Premises ?_ ?_, ?_⟩, ⟨f2Premises ?_ ?_, ?_, ?_, ?_⟩,
    f2Premises ?_ ?_, ?_⟩ <;> decide

theorem witness_QueuesAreFifo :
    ∃ s t, s = boot [3, 0] [7, 8] ∧ Sparse.wf [] s.queues ∧ coreStep s = .next t ∧ t.queue 0 = [8] :=
  ⟨_, _, rfl, by decide, rfl, rfl⟩

/-- A store that pops, an output that pushes, and a hold. -/
theorem witness_SignalsTellTheQueueTraffic :
    (∃ s t, s = boot [3, 0] [7] ∧ Sparse.wf [] s.queues ∧ coreStep s = .next t ∧ s.inPopSignal = true) ∧
    (∃ s t, s = boot [104, 5] [] ∧ Sparse.wf [] s.queues ∧ coreStep s = .next t ∧ s.outData = some 5) ∧
    (∃ s t, s = boot [3, 0] [] ∧ Sparse.wf [] s.queues ∧ coreStep s = .next t ∧ s.inPopSignal = false ∧
      s.outData = none) :=
  ⟨⟨_, _, rfl, by decide, rfl, rfl⟩, ⟨_, _, rfl, by decide, rfl, rfl⟩, ⟨_, _, rfl, by decide, rfl, rfl, rfl⟩⟩

theorem witness_StepTouchesOnlyItsCore :
    ∃ s t c, s = pair [104, 5] [99] [.coreStep 1] ∧ s.agenda = [.coreStep 1] ∧ s.cores[1]? = some c ∧
      step s = .next t :=
  ⟨_, _, _, rfl, rfl, rfl, rfl⟩

/-- P6's shape: two cores that wait for each other. -/
theorem witness_DeadlockIsForEver :
    ∃ s t, s = { pair [3, 0] [3, 0] [] with after := [CoreState.reset (words [3, 0]) 0 1 0] } ∧ s.deadlocked ∧
      applyMove (.coreStep 1) s = .next t := by
  refine ⟨_, _, rfl, fun k t h => .inr ?_, rfl⟩
  rcases k with _ | _ | k
  · cases h; rfl
  · cases h; rfl
  · simp [State.focus, State.cores, pair] at h

/-- A core in its reset state meets the invariant. -/
theorem reset_core_inv {image : List Word} (h : image.length ≤ Config.maxMemory) (start : Word) (i o : Nat) :
    (CoreState.reset image start i o).Inv :=
  ⟨Memory.ofImage_wf h, by simp [CoreState.reset], by simp [CoreState.reset], by simp [CoreState.reset],
    by simp [CoreState.reset], by simp [CoreState.reset]⟩

theorem pair_inv {p q : List Int} (hp : p.length ≤ Config.maxMemory) (hq : q.length ≤ Config.maxMemory)
    (moves : List Move) : (pair p q moves).Inv := by
  refine ⟨fun c hc => ?_, by simp [pair, Sparse.wf], by simp [State.wiringOk, State.cores, pair, CoreState.reset]⟩
  have hc : c = CoreState.reset (words p) 0 0 1 ∨ c = CoreState.reset (words q) 0 1 2 := by
    simpa [State.cores, pair] using hc
  rcases hc with rfl | rfl <;> exact reset_core_inv (by simpa [words] using ‹_›) _ _ _

theorem witness_StepsOfDifferentCoresCommute :
    ∃ s si sj ti tj, s = pair [104, 5] [104, 6] [] ∧ s.Inv ∧ (0 : Nat) ≠ 1 ∧ s.focus 0 = some ti ∧
      s.focus 1 = some tj ∧ ti.blocked = false ∧ tj.blocked = false ∧ applyMove (.coreStep 0) s = .next si ∧
      applyMove (.coreStep 1) s = .next sj :=
  ⟨_, _, _, _, _, rfl, pair_inv (by decide) (by decide) [], by decide, rfl, rfl, rfl, rfl, rfl, rfl⟩

theorem witness_ResetLoadsTheCore :
    ∃ s c, s = pair [99] [99] [.reset 1 (words [3, 0]) 0 4 5] ∧
      s.agenda = [.reset 1 (words [3, 0]) 0 4 5] ∧ s.cores[1]? = some c ∧
      (words [3, 0]).length ≤ Config.maxMemory ∧ s.wiringOk ∧
      ∀ j d, j ≠ 1 → s.cores[j]? = some d → d.inQ ≠ 4 ∧ d.outQ ≠ 5 := by
  refine ⟨_, _, rfl, rfl, rfl, by decide, by decide, fun j d hj hd => ?_⟩
  rcases j with _ | _ | j
  · cases hd; decide
  · exact absurd rfl hj
  · simp [State.cores, pair] at hd

theorem witness_ConstructAddsACore :
    (pair [99] [99] [.construct (words [99]) 0 4 5]).agenda = [.construct (words [99]) 0 4 5] ∧
    (words [99]).length ≤ Config.maxMemory ∧ (pair [99] [99] [.construct (words [99]) 0 4 5]).wiringOk ∧
    ∀ d ∈ (pair [99] [99] [.construct (words [99]) 0 4 5]).cores, d.inQ ≠ 4 ∧ d.outQ ≠ 5 := by decide

/-- A shared input end, then a shared output end. -/
theorem witness_SharedQueueEndIsRefused :
    (∃ s d, s = pair [99] [99] [.construct [] 0 0 9] ∧ ([] : List Word).length ≤ Config.maxMemory ∧
      s.cores[0]? = some d ∧ d.inQ = 0 ∧ s.agenda = [.construct [] 0 0 9]) ∧
    (∃ s d c, s = pair [99] [99] [.reset 1 [] 0 9 1] ∧ s.cores[0]? = some d ∧ d.outQ = 1 ∧ (1 : Nat) ≠ 0 ∧
      s.cores[1]? = some c ∧ s.agenda = [.reset 1 [] 0 9 1]) :=
  ⟨⟨_, _, rfl, by decide, rfl, rfl, rfl⟩, ⟨_, _, _, rfl, rfl, rfl, by decide, rfl, rfl⟩⟩

/-- The host's ends of the pair are queue 0 (push) and queue 2 (pop); queue 1 joins the cores. -/
theorem witness_HostPushesAndPops :
    Sparse.wf [] (pair [99] [99] []).queues ∧
    (∀ c ∈ (pair [99] [99] [.hostPush 0 7]).cores, c.outQ ≠ 0) ∧
    ((∃ c ∈ (stoppedWith .halted [.hostPush 1 7]).cores, c.outQ = 1) ∧
      ∃ c ∈ (stoppedWith .halted [.hostPush 1 7]).cores, c.status ≠ .running ∨ c.trace ≠ []) ∧
    ((∃ c ∈ (pair [99] [99] [.hostPush 2 7]).cores, c.outQ = 2) ∧
      ∀ c ∈ (pair [99] [99] [.hostPush 2 7]).cores, c.inQ ≠ 2) ∧
    (∀ c ∈ (pair [99] [99] [.hostPop 2]).cores, c.inQ ≠ 2) ∧
    (∃ c ∈ (pair [99] [99] [.hostPop 1]).cores, c.inQ = 1) := by decide

theorem witness_SeedingBeforeAnyCoreRuns :
    Sparse.wf [] (pair [99] [99] [.hostPush 1 4]).queues ∧
    (pair [99] [99] [.hostPush 1 4]).agenda = [.hostPush 1 4] ∧
    (∃ c ∈ (pair [99] [99] [.hostPush 1 4]).cores, c.inQ = 1) ∧
    ∀ c ∈ (pair [99] [99] [.hostPush 1 4]).cores, c.status = .running ∧ c.trace = [] := by decide

/-- A step with an empty agenda, and a host's move. -/
theorem witness_EveryStepKeepsTheInvariant :
    (∃ s t, s = pair [104, 5] [99] [] ∧ s.Inv ∧ step s = .next t) ∧
    (∃ s t, s = pair [104, 5] [99] [.hostPush 0 1] ∧ s.Inv ∧ step s = .next t) :=
  ⟨⟨_, _, rfl, pair_inv (by decide) (by decide) _, rfl⟩, ⟨_, _, rfl, pair_inv (by decide) (by decide) _, rfl⟩⟩

end Sys2Proof.Tests
end

section
/-! A stopped core has no step: the step of a named core, and the named stops (R9, R151, R171, R181). -/

namespace Sys2Proof.Machine

theorem coreStep_of_halted {s : State} (hs : s.core.status = .halted) : coreStep s = .fault .coreHalted := by
  rw [coreStep, hs]

theorem coreStep_of_faulted {s : State} (hs : s.core.status = .faulted) : coreStep s = .fault .coreFaulted := by
  rw [coreStep, hs]

/-- A scheduled step of core `k` is that core's own step, with core `k` made the active one and the move used up
(R86, R181). -/
theorem step_of_scheduled {s : State} {k : Nat} {rest : List Move} {c : CoreState}
    (ha : s.agenda = .coreStep k :: rest) (hc : s.cores[k]? = some c) :
    step s = coreStep
      { s with before := s.cores.take k, core := c, after := s.cores.drop (k + 1), agenda := rest } := by
  have hf : State.focus { s with agenda := rest } k =
      some { s with before := s.cores.take k, core := c, after := s.cores.drop (k + 1), agenda := rest } :=
    focus_eq_some.2 ⟨c, hc, rfl⟩
  rw [step_cons ha, applyMove, hf]

/-- Settles O34: the active core's step and a scheduled step are both the core's own step, which stops by name. -/
theorem stoppedCoreHasNoStep : Obligations.StoppedCoreHasNoStep := by
  intro s
  refine ⟨fun ha hs => ?_, fun ha hs => ?_, fun k rest c ha hc => ⟨fun hs => ?_, fun hs => ?_⟩⟩
  · rw [step_nil ha, coreStep_of_halted hs]
  · rw [step_nil ha, coreStep_of_faulted hs]
  · rw [step_of_scheduled ha hc, coreStep_of_halted hs]
  · rw [step_of_scheduled ha hc, coreStep_of_faulted hs]

end Sys2Proof.Machine
end

section
/-! What a core's step leaves of `ip`, memory and queues, and that a step ends Halted exactly when it ran a halt (R12,
R15, R152). -/

namespace Sys2Proof

theorem Instr.mnemonic_eq_halt {i : Instr} : i.mnemonic = .halt ↔ ∃ n, i = .halt n := by
  cases i <;> simp [Instr.mnemonic]

/-- Only a jump is taken, and only a jump has a target parameter. -/
theorem Instr.not_taken_of_targetMode {i : Instr} (h : i.targetMode = none) (c : Machine.CoreState) : ¬ i.Taken c := by
  cases i with
  | jumpIfTrue a b n => cases h
  | jumpIfFalse a b n => cases h
  | _ => exact id

theorem Instr.targetMode_of_isF3 {i : Instr} (h : i.isF3 = true) : i.targetMode = none := by
  cases i <;> simp_all [Instr.isF3, Instr.targetMode]

end Sys2Proof

namespace Sys2Proof.Machine

/-- The advance past an instruction that was fetched from a canonical memory is exact (R13). -/
theorem CoreState.toInt_advanced_of_read {c : CoreState} {w : Word} (hm : c.mem.wf)
    (hw : c.mem.read c.ip.toInt = some w) (m : Mnemonic) :
    (c.advanced m.params).toInt = c.ip.toInt + 1 + m.params := by
  obtain ⟨-, -, hsize⟩ := hm
  obtain ⟨h0, h1⟩ := Memory.valid_of_read hw
  have hp := m.params_le
  refine CoreState.toInt_advanced ?_ ?_ <;> simp only [wMin, wMax, Config.maxMemory] at hsize ⊢ <;> omega

/-- A completion loads a taken jump's target into `ip`, or advances past the instruction (R12, R90). -/
theorem Completes.ip {i : Instr} {s t : State} (h : Completes i s t) :
    (i.Taken s.core ∧ ∃ b, i.targetMode = some b ∧ s.core.Reads 2 b t.core.ip) ∨
      (¬ i.Taken s.core ∧ t.core.ip = s.core.advanced i.mnemonic.params) := by
  cases h with
  | result p r kind _ eq =>
    subst eq; exact .inr ⟨Instr.not_taken_of_targetMode (Instr.targetMode_of_isF3 kind) _, rfl⟩
  | input n p v rest kind _ _ eq => subst eq kind; exact .inr ⟨id, rfl⟩
  | output a n x kind _ eq => subst eq kind; exact .inr ⟨id, rfl⟩
  | jump b y kind value taken eq => subst eq; exact .inl ⟨taken, b, kind, value⟩
  | fallThrough b _ notTaken eq => subst eq; exact .inr ⟨notTaken, rfl⟩
  | halt n kind eq => subst eq kind; exact .inr ⟨id, rfl⟩

/-- A halt stops one past its own position (R150). -/
theorem Completes.toInt_ip_of_halt {i : Instr} {s t : State} {w : Word} (h : Completes i s t)
    (hi : i.mnemonic = .halt) (hm : s.core.mem.wf) (hw : s.core.mem.read s.core.ip.toInt = some w) :
    t.core.ip.toInt = s.core.ip.toInt + 1 := by
  obtain ⟨n, rfl⟩ := Instr.mnemonic_eq_halt.1 hi
  obtain ⟨htaken, -⟩ | ⟨-, hip⟩ := h.ip
  · exact htaken.elim
  · rw [hip, CoreState.toInt_advanced_of_read hm hw]
    exact add_zero _

theorem Completes.mem_wf {i : Instr} {s t : State} (h : Completes i s t) (hm : s.core.mem.wf) : t.core.mem.wf := by
  cases h with
  | result p r _ _ eq => subst eq; exact Memory.write_wf hm p r
  | input n p v rest _ _ _ eq => subst eq; exact Memory.write_wf hm p v
  | output a n x _ _ eq => subst eq; exact hm
  | jump b y _ _ _ eq => subst eq; exact hm
  | fallThrough b _ _ eq => subst eq; exact hm
  | halt n _ eq => subst eq; exact hm

theorem Completes.queues_wf {i : Instr} {s t : State} (h : Completes i s t) (hq : Sparse.wf [] s.queues) :
    Sparse.wf [] t.queues := by
  cases h with
  | result p r _ _ eq => subst eq; exact hq
  | input n p v rest _ _ _ eq => subst eq; exact State.setQueue_wf hq _ _
  | output a n x _ _ eq => subst eq; exact State.setQueue_wf hq _ _
  | jump b y _ _ _ eq => subst eq; exact hq
  | fallThrough b _ _ eq => subst eq; exact hq
  | halt n _ eq => subst eq; exact hq

/-- Settles O29, by what becomes of the step: only a completion moves `ip`, and `Completes.ip` says how. -/
theorem howIpChanges : Obligations.HowIpChanges := by
  intro s t hm h
  obtain ⟨hs, ⟨e, rfl⟩ | ⟨w, i, hw, hi, ⟨rfl, -⟩ | hc⟩⟩ := coreStep_ends h
  · exact ⟨fun _ => rfl, fun _ hf => absurd rfl hf⟩
  · exact ⟨fun _ => rfl, fun hne => absurd rfl hne⟩
  · refine ⟨?_, fun _ _ => ⟨w, i, hw, hi, ?_⟩⟩
    · rintro (rfl | hf)
      exacts [rfl, absurd hf (hc.not_faulted hs)]
    · obtain ⟨ht, htarget⟩ | ⟨hn, hip⟩ := hc.ip
      · exact ⟨fun _ => htarget, fun hn => absurd ht hn⟩
      · exact ⟨fun ht => absurd ht hn, fun _ => hip ▸ CoreState.toInt_advanced_of_read hm hw _⟩

/-- Settles O31: a halt always completes, and no other end of a step sets the status to Halted. -/
theorem onlyHaltHalts : Obligations.OnlyHaltHalts := by
  intro s t h
  obtain ⟨hs, hend⟩ := coreStep_ends h
  refine ⟨hs, fun ht => ?_, ?_⟩
  · obtain ⟨e, rfl⟩ | ⟨w, i, hw, hi, ⟨rfl, -⟩ | hc⟩ := hend
    · cases ht
    · rw [hs] at ht; cases ht
    · have hhalt : i.mnemonic = .halt := by
        by_contra hne
        rw [hc.status, if_neg hne, hs] at ht
        cases ht
      obtain ⟨n, rfl⟩ := Instr.mnemonic_eq_halt.1 hhalt
      exact ⟨w, n, hw, hi⟩
  · rintro ⟨w, n, hw, hi⟩
    rw [coreStep_of_decode hs hw hi] at h
    cases h
    rfl

end Sys2Proof.Machine
end

section
/-! The invariant: it holds at reset, and a core's step, a host's move and so every step of the system keep it (R16,
R19, R22, R23, R92, R170, R182). -/

namespace Sys2Proof.Machine

/-! The invariant of one core. -/

/-- What the invariant says of a Running core: no fault record, and no halt record in the trace. -/
theorem CoreState.inv_of_running {c : CoreState} (hs : c.status = .running) :
    c.Inv ↔ c.mem.wf ∧ c.fault = none ∧ ∀ r ∈ c.trace, r.code = r.mnemonic.code ∧ r.mnemonic ≠ .halt := by
  constructor
  · intro h
    refine ⟨h.memory, ?_, fun r hr => ⟨h.traceCode r hr, fun hh => ?_⟩⟩
    · by_contra hf
      have := h.faultRecord.2 hf
      rw [hs] at this
      cases this
    · have := h.haltRecord r hr hh
      rw [hs] at this
      cases this
  · rintro ⟨hm, hf, htrace⟩
    exact
      { memory := hm
        faultRecord := by simp [hs, hf]
        faultPos := by simp [hf]
        traceCode := fun r hr => (htrace r hr).1
        haltRecord := fun r hr hh => absurd hh (htrace r hr).2
        haltLast := by simp [hs] }

/-- A core in its reset state meets the invariant (R23, R200). -/
theorem CoreState.reset_inv {image : List Word} (h : image.length ≤ Config.maxMemory) (startPos : Word)
    (inQ outQ : Nat) : (CoreState.reset image startPos inQ outQ).Inv :=
  (CoreState.inv_of_running rfl).2 ⟨Memory.ofImage_wf h, rfl, fun _ hr => absurd hr List.not_mem_nil⟩

/-- Fault entry writes the record the Faulted status calls for, at `ip` (R170). -/
theorem State.raise_core_inv {s : State} (hs : s.core.status = .running) (h : s.core.Inv) (cause : FaultCause) :
    (s.raise cause).core.Inv := by
  obtain ⟨hm, -, htrace⟩ := (CoreState.inv_of_running hs).1 h
  exact
    { memory := hm
      faultRecord := by simp
      faultPos := fun _ hf => by cases hf; rfl
      traceCode := fun r hr => (htrace r hr).1
      haltRecord := fun r hr hh => absurd hh (htrace r hr).2
      haltLast := by simp }

/-- A completion keeps the core's invariant: a halt ends the trace with its record and stops the core one past it
(R92, R150); any other instruction leaves it Running with no halt record. -/
theorem Completes.core_inv {i : Instr} {s t : State} {w : Word} (hc : Completes i s t)
    (hs : s.core.status = .running) (hw : s.core.mem.read s.core.ip.toInt = some w) (h : s.core.Inv) :
    t.core.Inv := by
  obtain ⟨hm, hfault, htrace⟩ := (CoreState.inv_of_running hs).1 h
  have hfault' : t.core.fault = none := hc.fault.trans hfault
  have hlog : t.core.trace = s.core.trace ++ [⟨s.core.ip, i.mnemonic.code, i.modeWord, i.mnemonic⟩] := hc.logged
  have hmem : ∀ r ∈ t.core.trace, r ∈ s.core.trace ∨ r = ⟨s.core.ip, i.mnemonic.code, i.modeWord, i.mnemonic⟩ := by
    simp [hlog]
  have hcode : ∀ r ∈ t.core.trace, r.code = r.mnemonic.code := by
    intro r hr
    obtain hr | rfl := hmem r hr
    exacts [(htrace r hr).1, rfl]
  have hstatus := hc.status
  by_cases hhalt : i.mnemonic = .halt
  · rw [if_pos hhalt] at hstatus
    exact
      { memory := hc.mem_wf hm
        faultRecord := by simp [hstatus, hfault']
        faultPos := by simp [hfault']
        traceCode := hcode
        haltRecord := fun _ _ _ => hstatus
        haltLast := fun _ => ⟨_, by rw [hlog, List.getLast?_concat], hhalt, hc.toInt_ip_of_halt hhalt hm hw⟩ }
  · rw [if_neg hhalt, hs] at hstatus
    refine (CoreState.inv_of_running hstatus).2 ⟨hc.mem_wf hm, hfault', fun r hr => ⟨hcode r hr, ?_⟩⟩
    obtain hr | rfl := hmem r hr
    exacts [(htrace r hr).2, hhalt]

/-! The invariant of the system. -/

/-- The invariant looks at the cores and the queues only. -/
theorem State.Inv.congr {s t : State} (h : s.Inv) (hc : t.cores = s.cores) (hq : t.queues = s.queues) : t.Inv := by
  obtain ⟨hcores, hqueues, hwiring⟩ := h
  exact ⟨hc ▸ hcores, hq ▸ hqueues, by rwa [State.wiringOk, hc]⟩

theorem focus_inv {s t : State} {k : Nat} (hf : s.focus k = some t) (h : s.Inv) : t.Inv :=
  h.congr (focus_cores hf) (focus_queues hf)

theorem State.setQueue_inv {s : State} (h : s.Inv) (q : Nat) (l : List Word) : (s.setQueue q l).Inv :=
  ⟨h.cores, State.setQueue_wf h.queues q l, h.wiring⟩

/-- A freshly reset or constructed core that is accepted keeps the invariant, whatever it stands beside (R182). -/
theorem install_inv {s t : State} {image : List Word} (hi : install s image = .next t)
    (hcores : image.length ≤ Config.maxMemory → ∀ c ∈ s.cores, c.Inv) (hq : Sparse.wf [] s.queues) : t.Inv := by
  obtain ⟨hlen, hwiring, rfl⟩ := install_eq_next.1 hi
  exact ⟨hcores hlen, hq, hwiring⟩

theorem coreStep_core_inv {s t : State} (hstep : coreStep s = .next t) (h : s.core.Inv) : t.core.Inv := by
  obtain ⟨hs, ⟨e, rfl⟩ | ⟨w, i, hw, -, ⟨rfl, -⟩ | hc⟩⟩ := coreStep_ends hstep
  exacts [State.raise_core_inv hs h e, h, hc.core_inv hs hw h]

theorem coreStep_queues_wf {s t : State} (hstep : coreStep s = .next t) (h : Sparse.wf [] s.queues) :
    Sparse.wf [] t.queues := by
  obtain ⟨-, ⟨e, rfl⟩ | ⟨w, i, -, -, ⟨rfl, -⟩ | hc⟩⟩ := coreStep_ends hstep
  exacts [h, h, hc.queues_wf h]

theorem coreStep_inv {s t : State} (hstep : coreStep s = .next t) (h : s.Inv) : t.Inv := by
  obtain ⟨hb, ha, -, hin, hout, -⟩ := coreStep_frame hstep
  refine ⟨fun c hc => ?_, coreStep_queues_wf hstep h.queues, ?_⟩
  · rw [State.mem_cores, hb, ha] at hc
    obtain hc | rfl | hc := hc
    · exact h.cores c (State.mem_cores.2 (.inl hc))
    · exact coreStep_core_inv hstep (h.cores _ s.core_mem_cores)
    · exact h.cores c (State.mem_cores.2 (.inr (.inr hc)))
  · have hw := h.wiring
    simpa [State.wiringOk, State.cores_eq, hb, ha, hin, hout] using hw

theorem applyMove_inv {m : Move} {s t : State} (hmove : applyMove m s = .next t) (h : s.Inv) : t.Inv := by
  cases m with
  | coreStep k =>
    rw [applyMove] at hmove
    cases hf : s.focus k with
    | none => simp [hf] at hmove
    | some u =>
      simp only [hf] at hmove
      exact coreStep_inv hmove (focus_inv hf h)
  | hostPush q v =>
    rw [applyMove] at hmove
    split_ifs at hmove
    cases hmove
    exact State.setQueue_inv h _ _
  | hostPop q =>
    rw [applyMove] at hmove
    split_ifs at hmove
    cases hmove
    exact State.setQueue_inv h _ _
  | reset k image startPos inQ outQ =>
    rw [applyMove] at hmove
    cases hf : s.focus k with
    | none => simp [hf] at hmove
    | some u =>
      simp only [hf] at hmove
      have hu := focus_inv hf h
      refine install_inv hmove (fun hlen c hc => ?_) hu.queues
      rw [setCore_cores] at hc
      obtain hc | rfl := List.mem_or_eq_of_mem_set hc
      exacts [hu.cores c hc, CoreState.reset_inv hlen _ _ _]
  | construct image startPos inQ outQ =>
    rw [applyMove] at hmove
    refine install_inv hmove (fun hlen c hc => ?_) h.queues
    obtain hc | rfl | hc := State.mem_cores.1 hc
    exacts [h.cores c hc, CoreState.reset_inv hlen _ _ _, absurd hc List.not_mem_nil]

/-- Settles O52: a step is the active core's or a move of the agenda, and each keeps the invariant. -/
theorem everyStepKeepsTheInvariant : Obligations.EveryStepKeepsTheInvariant := by
  intro s t h hstep
  cases ha : s.agenda with
  | nil => exact coreStep_inv (step_nil ha ▸ hstep) h
  | cons m rest =>
    rw [step_cons ha] at hstep
    exact applyMove_inv hstep (h.congr rfl rfl)

/-! Reset. -/

/-- The model's reset state is one core after `Reset([], 0, 0, 1)` (R200, log entry 3). -/
theorem State.reset_core_eq : State.reset.core = CoreState.reset [] 0 0 1 := rfl

/-- Settles O50: the fields of `CoreState.reset`, with start position 0. -/
theorem resetState : Obligations.ResetState := by
  rw [Obligations.ResetState, State.reset_core_eq]
  exact ⟨BitVec.toInt_zero, rfl, rfl, rfl⟩

/-- Settles O51: the one core is a freshly reset one, there is no queue, and one core shares no queue end. -/
theorem invariantHoldsAtReset : Obligations.InvariantHoldsAtReset where
  cores c hc := by
    obtain hc | rfl | hc := State.mem_cores.1 hc
    · exact absurd hc List.not_mem_nil
    · exact CoreState.reset_inv (image := []) (Nat.zero_le _) 0 0 1
    · exact absurd hc List.not_mem_nil
  queues := Sparse.wf_nil
  wiring := ⟨List.nodup_singleton _, List.nodup_singleton _⟩

end Sys2Proof.Machine
end

section
/-! Memory: which indices are readable, read after write, equality of memories by their reads, and the word a store
writes just behind itself (R32, R33, R38, R44). -/

namespace Sys2Proof.Machine

/-- Settles O8: the two clauses are the two sides of the bounds check. -/
theorem indexReadableExactlyInRange : Obligations.IndexReadableExactlyInRange := by
  intro m a
  refine ⟨Memory.exists_read.2, fun hout => Memory.read_of_not_valid ?_⟩
  rintro ⟨h0, hsize⟩
  omega

/-- Settles O9, by the laws of `Memory.write`. -/
theorem readAfterWrite : Obligations.ReadAfterWrite := by
  intro m a v hm ha
  exact ⟨Memory.read_write_same hm ha v, fun _ hb => Memory.read_write_ne m hb v, Memory.write_size m a v,
    Memory.write_wf hm a v⟩

/-- Settles O10: the canonical lists agree at every index, inside memory by the reads and outside it because neither
lists anything there. -/
theorem memoriesThatReadAlikeAreEqual : Obligations.MemoriesThatReadAlikeAreEqual :=
  fun _ _ hm hn hsize hread => Memory.ext_of_read hm hn hsize hread

/-- A store whose target resolves and whose input queue has a head completes (R131). -/
theorem exec_store_of_inputQueue_cons {n : Nat} {s : State} {p : Nat} {v : Word} {rest : List Word}
    (ht : s.core.Targets 1 p) (hq : s.inputQueue = v :: rest) :
    exec (.store n) s = .next ((s.inPop.writeMem p v).retireNext .store (modeF1W n)) := by
  rw [exec, execStore, resolveTarget_of_targets ht, hq]

/-- The advance is exact when the cell right behind the instruction lies in a canonical memory (R13). -/
theorem CoreState.toInt_advanced_eq_of_lt_size {c : CoreState} {n p : Nat} (hm : c.mem.wf) (hp : p < c.mem.size)
    (hip : (p : Int) = c.ip.toInt + 1 + n) : (c.advanced n).toInt = p := by
  obtain ⟨-, -, hsize⟩ := hm
  rw [hip]
  refine CoreState.toInt_advanced ?_ ?_ <;> simp only [wMin, wMax, Config.maxMemory] at hsize ⊢ <;> omega

/-- Settles O38: the advance ends exactly at the target, where the write is read back. -/
theorem storedWordIsFetchedNext : Obligations.StoredWordIsFetchedNext := by
  intro n s p v rest hm ht hq hp
  refine ⟨_, exec_store_of_inputQueue_cons ht hq, fetch_eq_ok.2 ?_⟩
  have hip : (s.core.advanced 1).toInt = p := CoreState.toInt_advanced_eq_of_lt_size hm ht.lt (by omega)
  calc (s.core.mem.write p v).read (s.core.advanced 1).toInt
    _ = (s.core.mem.write p v).read p := by rw [hip]
    _ = some v := Memory.read_write_same hm ht.lt v

end Sys2Proof.Machine
end

section
/-! Encoding: an instruction stands for exactly the Words of its assembled value, so decode and encode are inverse to
each other, and what the surplus digits can change (R51 to R60, R63). -/

namespace Sys2Proof

/-! Each format's decoder reads back the mode word of its format (R57). -/

theorem decodeF3_modeF3 (make : Mode → Mode → Nat → Instr) (a b : Mode) (n : Nat) :
    decodeF3 make (modeF3 a b n) = .ok (make a b n) := by
  have ha := a.digit_le
  have hb := b.digit_le
  have h1 : parameterMode (modeF3 a b n) 1 = .ok a :=
    parameterMode_eq_ok.2 (by rw [digit_zero, modeF3]; omega)
  have h2 : parameterMode (modeF3 a b n) 2 = .ok b :=
    parameterMode_eq_ok.2 (by rw [digit_one, modeF3]; omega)
  have h3 : parameterMode (modeF3 a b n) 3 = .ok .position :=
    parameterMode_eq_ok.2 (by rw [digit_two, modeF3, Mode.digit]; omega)
  have hn : modeF3 a b n / 1000 = n := by rw [modeF3]; omega
  simp [decodeF3, h1, h2, h3, hn]

theorem decodeF2_modeF2 (make : Mode → Mode → Nat → Instr) (a b : Mode) (n : Nat) :
    decodeF2 make (modeF2 a b n) = .ok (make a b n) := by
  have ha := a.digit_le
  have hb := b.digit_le
  have h1 : parameterMode (modeF2 a b n) 1 = .ok a :=
    parameterMode_eq_ok.2 (by rw [digit_zero, modeF2]; omega)
  have h2 : parameterMode (modeF2 a b n) 2 = .ok b :=
    parameterMode_eq_ok.2 (by rw [digit_one, modeF2]; omega)
  have hn : modeF2 a b n / 100 = n := by rw [modeF2]; omega
  simp [decodeF2, h1, h2, hn]

theorem decodeF1R_modeF1R (make : Mode → Nat → Instr) (a : Mode) (n : Nat) :
    decodeF1R make (modeF1R a n) = .ok (make a n) := by
  have ha := a.digit_le
  have h1 : parameterMode (modeF1R a n) 1 = .ok a :=
    parameterMode_eq_ok.2 (by rw [digit_zero, modeF1R]; omega)
  have hn : modeF1R a n / 10 = n := by rw [modeF1R]; omega
  simp [decodeF1R, h1, hn]

theorem decodeF1W_modeF1W (make : Nat → Instr) (n : Nat) : decodeF1W make (modeF1W n) = .ok (make n) := by
  have h1 : parameterMode (modeF1W n) 1 = .ok .position :=
    parameterMode_eq_ok.2 (by rw [digit_zero, modeF1W, Mode.digit]; omega)
  have hn : modeF1W n / 10 = n := by rw [modeF1W]; omega
  simp [decodeF1W, h1, hn]

theorem decodeSplit_code_modeWord (i : Instr) : decodeSplit i.mnemonic.code i.modeWord = .ok i := by
  cases i with
  | add a b n => exact decodeF3_modeF3 .add a b n
  | multiply a b n => exact decodeF3_modeF3 .multiply a b n
  | store n => exact decodeF1W_modeF1W .store n
  | output a n => exact decodeF1R_modeF1R .output a n
  | jumpIfTrue a b n => exact decodeF2_modeF2 .jumpIfTrue a b n
  | jumpIfFalse a b n => exact decodeF2_modeF2 .jumpIfFalse a b n
  | lessThan a b n => exact decodeF3_modeF3 .lessThan a b n
  | equals a b n => exact decodeF3_modeF3 .equals a b n
  | halt n => rfl

/-- The decoder splits a word that is not negative into its two decimal fields (R51). -/
theorem decode_of_toInt_eq {w : Word} {v : Nat} (h : w.toInt = v) : decode w = decodeSplit (v % 100) (v / 100) := by
  rw [decode, if_neg (by omega), h, Int.toNat_natCast]

/-- A Word decodes to an instruction exactly when it is the number the instruction assembles to (R63). -/
theorem decode_eq_ok {w : Word} {i : Instr} : decode w = .ok i ↔ w.toInt = i.wordValue := by
  constructor
  · intro h
    obtain ⟨h0, hcode, hmode⟩ := decode_fields h
    rw [Instr.wordValue]
    omega
  · intro h
    rw [decode_of_toInt_eq h, i.wordValue_mod, i.wordValue_div, decodeSplit_code_modeWord]

theorem Instr.wellFormed_iff (i : Instr) : i.wellFormed = true ↔ (i.wordValue : Int) ≤ wMax := by
  have hfields : Laws.EncodingFields.Statement i := by
    cases i with
    | add a b n => exact Laws.EncodingFields.add a b n
    | multiply a b n => exact Laws.EncodingFields.multiply a b n
    | store n => exact Laws.EncodingFields.store n
    | output a n => exact Laws.EncodingFields.output a n
    | jumpIfTrue a b n => exact Laws.EncodingFields.jumpIfTrue a b n
    | jumpIfFalse a b n => exact Laws.EncodingFields.jumpIfFalse a b n
    | lessThan a b n => exact Laws.EncodingFields.lessThan a b n
    | equals a b n => exact Laws.EncodingFields.equals a b n
    | halt n => exact Laws.EncodingFields.halt n
  exact hfields.2.2

theorem toInt_encode {i : Instr} (h : i.wellFormed = true) : (encode i).toInt = i.wordValue := by
  rw [encode, ← BitVec.ofInt_natCast]
  exact Machine.toInt_ofInt (by rw [wMin]; omega) (i.wellFormed_iff.1 h)

/-- Settles O3: the encoded Word is the number the instruction assembles to, and that number decodes to it. -/
theorem decodeEncodeRoundTrip : Obligations.DecodeEncodeRoundTrip :=
  fun _ h => decode_eq_ok.2 (toInt_encode h)

/-- Settles O4: a Word that decodes to `i` is `i`'s number, which is therefore in range and encodes back. -/
theorem encodeDecodeRoundTrip : Obligations.EncodeDecodeRoundTrip := by
  intro w i h
  have hw := decode_eq_ok.1 h
  have hwf : i.wellFormed = true := by
    have hlt := BitVec.toInt_lt (x := w)
    rw [i.wellFormed_iff, ← hw, wMax]
    omega
  exact ⟨hwf, BitVec.eq_of_toInt_eq ((toInt_encode hwf).trans hw.symm)⟩

/-- Settles O1: each word is the number R63 assembles for its instruction. -/
theorem specWordsDecode : Obligations.SpecWordsDecode := by
  refine ⟨?_, ?_, ?_, ?_, ?_, ?_, ?_, ?_, ?_, ?_, ?_⟩ <;> exact decode_eq_ok.2 rfl

/-! The classification of a word of a known row (R60), format by format. -/

/-- The first `n` mode digits are 0 or 1. -/
def ModesLegal (mode n : Nat) : Prop := ∀ k < n, ∃ d, parameterMode mode (k + 1) = .ok d

/-- `decoder` classifies mode words as R60 does for a row of `params` parameters with write target `target`: the
lowest reserved mode digit first, then an immediate write target, else a legal instruction. -/
structure Classifies (decoder : Nat → Except DecodeError Instr) (params : Nat) (target : Option Nat) : Prop where
  lowestReserved : ∀ {mode k e}, k < params → ModesLegal mode k → parameterMode mode (k + 1) = .error e →
    decoder mode = .error e
  immediateTarget : ∀ {mode k}, ModesLegal mode params → target = some k → parameterMode mode k = .ok .immediate →
    decoder mode = .error (.immediateWriteTarget k)
  legal : ∀ {mode}, ModesLegal mode params → (∀ k, target = some k → parameterMode mode k = .ok .position) →
    ∃ i, decoder mode = .ok i

theorem decodeF3_classifies (make : Mode → Mode → Nat → Instr) : Classifies (decodeF3 make) 3 (some 3) where
  lowestReserved {mode k e} hk hlow he := by
    match k with
    | 0 => simp [decodeF3, he]
    | 1 =>
      obtain ⟨a, ha⟩ := hlow 0 (by omega)
      simp [decodeF3, ha, he]
    | 2 =>
      obtain ⟨a, ha⟩ := hlow 0 (by omega)
      obtain ⟨b, hb⟩ := hlow 1 (by omega)
      simp [decodeF3, ha, hb, he]
  immediateTarget hmodes ht hk := by
    cases ht
    obtain ⟨a, ha⟩ := hmodes 0 (by omega)
    obtain ⟨b, hb⟩ := hmodes 1 (by omega)
    simp [decodeF3, ha, hb, hk]
  legal hmodes ht := by
    obtain ⟨a, ha⟩ := hmodes 0 (by omega)
    obtain ⟨b, hb⟩ := hmodes 1 (by omega)
    simp [decodeF3, ha, hb, ht 3 rfl]

theorem decodeF2_classifies (make : Mode → Mode → Nat → Instr) : Classifies (decodeF2 make) 2 none where
  lowestReserved {mode k e} hk hlow he := by
    match k with
    | 0 => simp [decodeF2, he]
    | 1 =>
      obtain ⟨a, ha⟩ := hlow 0 (by omega)
      simp [decodeF2, ha, he]
  immediateTarget _ ht := by cases ht
  legal hmodes _ := by
    obtain ⟨a, ha⟩ := hmodes 0 (by omega)
    obtain ⟨b, hb⟩ := hmodes 1 (by omega)
    simp [decodeF2, ha, hb]

theorem decodeF1R_classifies (make : Mode → Nat → Instr) : Classifies (decodeF1R make) 1 none where
  lowestReserved {mode k e} hk _ he := by
    obtain rfl : k = 0 := by omega
    simp [decodeF1R, he]
  immediateTarget _ ht := by cases ht
  legal hmodes _ := by
    obtain ⟨a, ha⟩ := hmodes 0 (by omega)
    simp [decodeF1R, ha]

theorem decodeF1W_classifies (make : Nat → Instr) : Classifies (decodeF1W make) 1 (some 1) where
  lowestReserved {mode k e} hk _ he := by
    obtain rfl : k = 0 := by omega
    simp [decodeF1W, he]
  immediateTarget _ ht hk := by
    cases ht
    simp [decodeF1W, hk]
  legal _ ht := by simp [decodeF1W, ht 1 rfl]

/-- Format F0: a halt has no parameter, so every mode word is legal. -/
theorem halt_classifies : Classifies (fun mode => .ok (.halt mode)) 0 none where
  lowestReserved hk := absurd hk (Nat.not_lt_zero _)
  immediateTarget _ ht := by cases ht
  legal {mode} _ _ := ⟨.halt mode, rfl⟩

theorem Mnemonic.decodeSplit_classifies (m : Mnemonic) : Classifies (decodeSplit m.code) m.params m.writeTarget := by
  cases m with
  | add => exact decodeF3_classifies .add
  | multiply => exact decodeF3_classifies .multiply
  | store => exact decodeF1W_classifies .store
  | output => exact decodeF1R_classifies .output
  | jumpIfTrue => exact decodeF2_classifies .jumpIfTrue
  | jumpIfFalse => exact decodeF2_classifies .jumpIfFalse
  | lessThan => exact decodeF3_classifies .lessThan
  | equals => exact decodeF3_classifies .equals
  | halt => exact halt_classifies

theorem decodeSplit_of_unknown {code mode : Nat} (h : ∀ m : Mnemonic, m.code ≠ code) :
    decodeSplit code mode = .error (.unknownOpcode code) := by
  rw [decodeSplit, Mnemonic.ofCode_eq_none.2 h]

theorem Mnemonic.code_injective {m m' : Mnemonic} (h : m.code = m'.code) : m = m' := by
  have hm := Mnemonic.ofCode_eq_some.2 h
  rw [Mnemonic.ofCode_code] at hm
  exact (Option.some.inj hm).symm

theorem modesLegal_of_digit_lt {mode n : Nat} (h : ∀ j, 1 ≤ j → j ≤ n → digit mode (j - 1) < 2) :
    ModesLegal mode n := by
  intro k hk
  cases hm : parameterMode mode (k + 1) with
  | ok d => exact ⟨d, rfl⟩
  | error e =>
    have hlt := h (k + 1) (by omega) hk
    have hge := (parameterMode_eq_error.1 hm).1
    omega

/-- Settles O2: a negative word and an unknown row by the decoder's first two looks, a known row by its format. -/
theorem decodeClassifiesEveryWord : Obligations.DecodeClassifiesEveryWord := by
  intro w
  refine ⟨fun hneg => by rw [decode, if_pos hneg], fun v hv => ⟨fun hno => ?_, fun m hm => ⟨?_, fun hlt => ?_⟩⟩⟩
  · rw [decode_of_toInt_eq hv, decodeSplit_of_unknown hno]
  · intro k h1 hk hge hlow
    obtain ⟨k, rfl⟩ := Nat.exists_eq_add_of_le' h1
    rw [decode_of_toInt_eq hv, ← hm]
    exact m.decodeSplit_classifies.lowestReserved hk
      (modesLegal_of_digit_lt fun j hj hjk => hlow j hj (by omega)) (parameterMode_eq_error.2 ⟨hge, rfl⟩)
  · have hmodes := modesLegal_of_digit_lt hlt
    refine ⟨fun k ht hd => ?_, fun hd => ?_⟩
    · rw [decode_of_toInt_eq hv, ← hm]
      exact m.decodeSplit_classifies.immediateTarget hmodes ht (parameterMode_eq_ok.2 hd)
    · obtain ⟨i, hi⟩ := m.decodeSplit_classifies.legal hmodes fun k ht => parameterMode_eq_ok.2 (hd k ht)
      have hw : decode w = .ok i := by rw [decode_of_toInt_eq hv, ← hm, hi]
      obtain ⟨-, hcode, hmode⟩ := decode_fields hw
      rw [hv, Int.toNat_natCast] at hcode hmode
      exact ⟨i, hw, Mnemonic.code_injective (hcode.trans hm.symm), hmode⟩

/-! Surplus digits (R55). -/

/-- The instruction with another surplus number. -/
def Instr.withSurplus (n : Nat) : Instr → Instr
  | .add a b _ => .add a b n
  | .multiply a b _ => .multiply a b n
  | .store _ => .store n
  | .output a _ => .output a n
  | .jumpIfTrue a b _ => .jumpIfTrue a b n
  | .jumpIfFalse a b _ => .jumpIfFalse a b n
  | .lessThan a b _ => .lessThan a b n
  | .equals a b _ => .equals a b n
  | .halt _ => .halt n

@[simp] theorem Instr.mnemonic_withSurplus (i : Instr) (n : Nat) : (i.withSurplus n).mnemonic = i.mnemonic := by
  cases i <;> rfl

theorem Instr.exists_withSurplus_eq (i : Instr) : ∃ n, i.withSurplus n = i := by
  cases i <;> exact ⟨_, rfl⟩

/-- The surplus number stands above the opcode and the parameters' mode digits (R57). -/
theorem Instr.wordValue_withSurplus (i : Instr) (n : Nat) :
    (i.withSurplus n).wordValue =
      i.wordValue % 10 ^ (2 + i.mnemonic.params) + 10 ^ (2 + i.mnemonic.params) * n := by
  have hdigit := Mode.digit_le
  cases i with
  | store | halt =>
    simp only [Instr.withSurplus, Instr.wordValue, Instr.mnemonic, Mnemonic.code, Mnemonic.params, Instr.modeWord,
      modeF1W]
    omega
  | output a =>
    have ha := hdigit a
    simp only [Instr.withSurplus, Instr.wordValue, Instr.mnemonic, Mnemonic.code, Mnemonic.params, Instr.modeWord,
      modeF1R]
    omega
  | add a b | multiply a b | lessThan a b | equals a b | jumpIfTrue a b | jumpIfFalse a b =>
    have ha := hdigit a
    have hb := hdigit b
    simp only [Instr.withSurplus, Instr.wordValue, Instr.mnemonic, Mnemonic.code, Mnemonic.params, Instr.modeWord,
      modeF2, modeF3]
    omega

/-- A word that agrees with `i`'s below the surplus digits decodes to `i` with another surplus (R55). -/
theorem decode_withSurplus {w : Word} {i : Instr} (h0 : 0 ≤ w.toInt)
    (h : w.toInt.toNat % 10 ^ (2 + i.mnemonic.params) = i.wordValue % 10 ^ (2 + i.mnemonic.params)) :
    decode w = .ok (i.withSurplus (w.toInt.toNat / 10 ^ (2 + i.mnemonic.params))) := by
  rw [decode_eq_ok, i.wordValue_withSurplus, ← h, Nat.mod_add_div, Int.toNat_of_nonneg h0]

end Sys2Proof

namespace Sys2Proof.Machine

/-- `t` with the active core's trace replaced. -/
def State.withTrace (t : State) (trace : List TraceRecord) : State :=
  { t with core := { t.core with trace := trace } }

/-- Whatever the surplus, `run` answers one and the same next state: with the trace of `s`, or with the record of row
`m` appended, in which the mode word alone depends on the surplus. -/
def SurplusOnlyTraced (s : State) (m : Mnemonic) (modeWord : Nat → Nat)
    (run : Nat → Host.Outcome State Fault Refusal) : Prop :=
  (∃ t, t.core.trace = s.core.trace ∧ ∀ n, run n = .next t) ∨
    ∃ t : State, ∀ n, run n = .next (t.withTrace (s.core.trace ++ [⟨s.core.ip, m.code, modeWord n, m⟩]))

theorem execF3_surplusOnlyTraced (m : Mnemonic) (f : Word → Word → Except FaultCause Word) (a b : Mode) (s : State) :
    SurplusOnlyTraced s m (modeF3 a b) (execF3 m f a b · s) := by
  simp only [SurplusOnlyTraced, execF3]
  cases resolveF3 s.core a b with
  | error e => exact .inl ⟨s.raise e, rfl, fun _ => rfl⟩
  | ok v =>
    obtain ⟨x, y, p⟩ := v
    cases hr : f x y with
    | error e => exact .inl ⟨s.raise e, rfl, fun _ => by simp only [hr]⟩
    | ok r => exact .inr ⟨(s.writeMem p r).retireNext m 0, fun _ => by simp only [hr]; rfl⟩

theorem execF2_surplusOnlyTraced (m : Mnemonic) (taken : Word → Bool) (a b : Mode) (s : State) :
    SurplusOnlyTraced s m (modeF2 a b) (execF2 m taken a b · s) := by
  simp only [SurplusOnlyTraced, execF2]
  cases resolveF2 s.core a b with
  | error e => exact .inl ⟨s.raise e, rfl, fun _ => rfl⟩
  | ok v =>
    obtain ⟨x, y⟩ := v
    cases ht : taken x with
    | true => exact .inr ⟨s.retire m 0 y, fun _ => by simp only [ht]; rfl⟩
    | false => exact .inr ⟨s.retireNext m 0, fun _ => by simp only [ht]; rfl⟩

theorem execStore_surplusOnlyTraced (s : State) : SurplusOnlyTraced s .store modeF1W (execStore · s) := by
  simp only [SurplusOnlyTraced, execStore]
  cases resolveTarget s.core 1 with
  | error e => exact .inl ⟨s.raise e, rfl, fun _ => rfl⟩
  | ok p =>
    cases s.inputQueue with
    | nil => exact .inl ⟨s, rfl, fun _ => rfl⟩
    | cons v rest => exact .inr ⟨(s.inPop.writeMem p v).retireNext .store 0, fun _ => rfl⟩

theorem execOutput_surplusOnlyTraced (a : Mode) (s : State) :
    SurplusOnlyTraced s .output (modeF1R a) (execOutput a · s) := by
  simp only [SurplusOnlyTraced, execOutput]
  cases resolve s.core 1 a with
  | error e => exact .inl ⟨s.raise e, rfl, fun _ => rfl⟩
  | ok p => exact .inr ⟨(s.outPush p.value).retireNext .output 0, fun _ => rfl⟩

theorem exec_surplusOnlyTraced (i : Instr) (s : State) :
    SurplusOnlyTraced s i.mnemonic (fun n => (i.withSurplus n).modeWord) (fun n => exec (i.withSurplus n) s) := by
  cases i with
  | add a b n => exact execF3_surplusOnlyTraced _ _ a b s
  | multiply a b n => exact execF3_surplusOnlyTraced _ _ a b s
  | store n => exact execStore_surplusOnlyTraced s
  | output a n => exact execOutput_surplusOnlyTraced a s
  | jumpIfTrue a b n => exact execF2_surplusOnlyTraced _ _ a b s
  | jumpIfFalse a b n => exact execF2_surplusOnlyTraced _ _ a b s
  | lessThan a b n => exact execF3_surplusOnlyTraced _ (fun x y => .ok (lessResult x y)) a b s
  | equals a b n => exact execF3_surplusOnlyTraced _ (fun x y => .ok (equalResult x y)) a b s
  | halt n => exact .inr ⟨(s.retireNext .halt 0).setHalted, fun _ => rfl⟩

/-- Settles O5: `w'` decodes to the same instruction with another surplus, and a surplus is only traced. -/
theorem surplusDigitsHaveNoEffect : Obligations.SurplusDigitsHaveNoEffect := by
  intro w w' i s hw h0 hlow
  have hvalue : w.toInt.toNat = i.wordValue := by rw [decode_eq_ok.1 hw, Int.toNat_natCast]
  have hw' := decode_withSurplus h0 (hvalue ▸ hlow)
  obtain ⟨-, -, hmode⟩ := decode_fields hw'
  obtain ⟨n, hn⟩ := i.exists_withSurplus_eq
  obtain ⟨t, ht, hrun⟩ | ⟨t, hrun⟩ := exec_surplusOnlyTraced i s
  · exact ⟨_, t, t, hw', i.mnemonic_withSurplus _, hn ▸ hrun n, hrun _, rfl, .inl ⟨ht, ht⟩⟩
  · have hi := hrun n
    simp only [hn] at hi
    refine ⟨_, _, _, hw', i.mnemonic_withSurplus _, hi, hrun _, rfl, .inr ⟨rfl, ?_, hmode⟩⟩
    rw [State.Logged, i.mnemonic_withSurplus]
    rfl

end Sys2Proof.Machine
end

section
/-! SUPPORT. The resolution of one parameter clause by clause (R72), and the order in which an instruction's parameters
are resolved (R71, R94, R167). -/

namespace Sys2Proof.Machine

/-! One parameter. -/

/-- The slot check comes first, in both modes (R72). -/
theorem resolve_of_read_slot_none {c : CoreState} {k : Nat} (h : c.mem.read (c.slot k) = none) (d : Mode) :
    resolve c k d = .error (.slot k (c.slot k)) := by
  cases d with
  | position => simp [resolve, resolvePosition, h]
  | immediate => simp [resolve, resolveImmediate, h]

theorem resolve_immediate_of_read {c : CoreState} {k : Nat} {v : Word} (h : c.mem.read (c.slot k) = some v) :
    resolve c k .immediate = .ok (.immediate v) := by
  simp [resolve, resolveImmediate, h]

theorem resolve_position_of_read_none {c : CoreState} {k : Nat} {v : Word} (hv : c.mem.read (c.slot k) = some v)
    (hx : c.mem.read v.toInt = none) : resolve c k .position = .error (.pointer k v.toInt) := by
  simp [resolve, resolvePosition, hv, hx]

theorem resolve_position_of_read {c : CoreState} {k : Nat} {v x : Word} (hv : c.mem.read (c.slot k) = some v)
    (hx : c.mem.read v.toInt = some x) : resolve c k .position = .ok (.reference v.toInt.toNat x) := by
  simp [resolve, resolvePosition, hv, hx]

/-- Settles O6: each clause is the read of the slot, then in position mode the read of the address it names. -/
theorem parameterResolution : Obligations.ParameterResolution := by
  intro c k _
  refine ⟨fun hslot => resolve_of_read_slot_none (Memory.read_of_not_valid ?_), fun v _ hv => ?_⟩
  · rintro ⟨-, hlt⟩
    exact absurd hlt (not_lt.2 hslot)
  · refine ⟨resolve_immediate_of_read hv, fun hout => ?_, fun h0 hlt => ?_⟩
    · exact resolve_position_of_read_none hv (Memory.read_of_not_valid (by omega))
    · obtain ⟨x, hx⟩ := Memory.exists_read.2 ⟨h0, hlt⟩
      exact ⟨x, hx, resolve_position_of_read hv hx⟩

/-! All parameters of an instruction, left to right. -/

/-- Resolving parameters `k`, `k + 1`, … in the listed modes meets its first fault with cause `e` (R71). -/
inductive CoreState.FirstFault (c : CoreState) (e : FaultCause) : Nat → List Mode → Prop where
  | here {k : Nat} {d : Mode} {ds : List Mode} (fault : resolve c k d = .error e) : FirstFault c e k (d :: ds)
  | later {k : Nat} {d : Mode} {ds : List Mode} {p : Operand} (ok : resolve c k d = .ok p)
      (rest : FirstFault c e (k + 1) ds) : FirstFault c e k (d :: ds)

/-- The first fault, found by its place in the list. -/
theorem CoreState.firstFault_of_getElem? {c : CoreState} {e : FaultCause} {ds : List Mode} {j k : Nat} {d : Mode}
    (hd : ds[j]? = some d) (hok : ∀ l d', l < j → ds[l]? = some d' → ∃ p, resolve c (l + k) d' = .ok p)
    (he : resolve c (j + k) d = .error e) : c.FirstFault e k ds := by
  induction ds generalizing j k with
  | nil => simp at hd
  | cons d₀ ds ih =>
    cases j with
    | zero =>
      obtain rfl : d₀ = d := by simpa using hd
      exact .here (by simpa using he)
    | succ j =>
      obtain ⟨p, hp⟩ := hok 0 d₀ j.succ_pos rfl
      refine .later (by simpa using hp) (ih (j := j) (by simpa using hd) (fun l d' hl hd' => ?_) ?_)
      · obtain ⟨q, hq⟩ := hok (l + 1) d' (by omega) (by simpa using hd')
        exact ⟨q, by rwa [Nat.succ_add_eq_add_succ] at hq⟩
      · rwa [Nat.succ_add_eq_add_succ] at he

theorem resolveTarget_of_error {c : CoreState} {k : Nat} {e : FaultCause} (h : resolve c k .position = .error e) :
    resolveTarget c k = .error e := by
  rw [resolveTarget_eq, h]

theorem resolveF2_of_firstFault {c : CoreState} {e : FaultCause} {a b : Mode} (h : c.FirstFault e 1 [a, b]) :
    resolveF2 c a b = .error e := by
  cases h with
  | here h1 => simp [resolveF2, h1]
  | later h1 h =>
    cases h with
    | here h2 => simp [resolveF2, h1, h2]
    | later _ h => cases h

theorem resolveF3_of_firstFault {c : CoreState} {e : FaultCause} {a b : Mode}
    (h : c.FirstFault e 1 [a, b, .position]) : resolveF3 c a b = .error e := by
  cases h with
  | here h1 => simp [resolveF3, resolveF2_of_firstFault (.here h1)]
  | later h1 h =>
    cases h with
    | here h2 => simp [resolveF3, resolveF2_of_firstFault (.later h1 (.here h2))]
    | later h2 h =>
      cases h with
      | here h3 => simp [resolveF3, resolveF2, h1, h2, resolveTarget_of_error h3]
      | later _ h => cases h

theorem resolve_of_firstFault {c : CoreState} {e : FaultCause} {k : Nat} {d : Mode} (h : c.FirstFault e k [d]) :
    resolve c k d = .error e := by
  cases h with
  | here h1 => exact h1
  | later _ h => cases h

/-- The first fault of an instruction's parameters ends its step (R71, R167): every shape of instruction resolves all
its parameters before it does anything else. -/
theorem exec_of_firstFault {i : Instr} {s : State} {e : FaultCause} (h : s.core.FirstFault e 1 i.paramModes) :
    exec i s = .next (s.raise e) := by
  cases i with
  | add a b | multiply a b | lessThan a b | equals a b =>
    simp [exec, execAdd, execMultiply, execLessThan, execEquals, execF3, resolveF3_of_firstFault h]
  | jumpIfTrue a b | jumpIfFalse a b =>
    simp [exec, execJumpIfTrue, execJumpIfFalse, execF2, resolveF2_of_firstFault h]
  | store => simp [exec, execStore, resolveTarget_of_error (resolve_of_firstFault h)]
  | output a => simp [exec, execOutput, resolve_of_firstFault h]
  | halt => cases h

/-- Settles O7: the named parameter is the first fault of the instruction's parameters, and that ends the step. -/
theorem firstFaultingParameterEndsTheStep : Obligations.FirstFaultingParameterEndsTheStep := by
  intro i s k d e hd hok he
  rw [← State.raise_eq_faultedWith]
  exact exec_of_firstFault (CoreState.firstFault_of_getElem? hd hok he)

end Sys2Proof.Machine
end

section
/-! The sequencer's step: fetch and decode with their faults, the hold and the blocked predicate, and the one trace
record of a completed step (R86, R87, R88, R91, R93, R94). -/

namespace Sys2Proof.Machine

/-! Fetch and decode. -/

/-- A fetch outside memory ends the step (R87). -/
theorem coreStep_of_not_valid {s : State} (hs : s.core.status = .running)
    (hv : ¬ s.core.mem.valid s.core.ip.toInt) : coreStep s = .next (s.raise (.fetch s.core.ip.toInt)) := by
  simp [coreStep, hs, fetch_eq_error.2 ⟨hv, rfl⟩]

/-- A decode fault ends the step before any parameter is read (R88). -/
theorem coreStep_of_decode_error {s : State} {w : Word} {e : DecodeError} (hs : s.core.status = .running)
    (hw : s.core.mem.read s.core.ip.toInt = some w) (he : decode w = .error e) :
    coreStep s = .next (s.raise (decodeCause w e)) := by
  simp [coreStep, hs, fetch_eq_ok.2 hw, he]

/-- Settles O24: the empty agenda leaves the step to the active core, which runs what it fetched. -/
theorem stepRunsTheDecodedInstruction : Obligations.StepRunsTheDecodedInstruction := by
  intro s ha
  refine ⟨step_nil ha, fun w i hs hw hi => ?_⟩
  rw [step_nil ha, coreStep_of_decode hs hw hi]

/-- Settles O26: an index outside `0 .. N-1` is not valid. -/
theorem fetchOutsideMemoryFaults : Obligations.FetchOutsideMemoryFaults := by
  intro s hs hout
  rw [← State.raise_eq_faultedWith]
  refine coreStep_of_not_valid hs ?_
  rintro ⟨h0, hlt⟩
  omega

/-- Settles O27: each record is the `decodeCause` of its decode error. -/
theorem decodeFaultsAreRecorded : Obligations.DecodeFaultsAreRecorded := by
  intro s w hs hw
  exact ⟨coreStep_of_decode_error hs hw, fun _ => coreStep_of_decode_error hs hw,
    fun _ _ => coreStep_of_decode_error hs hw, fun _ => coreStep_of_decode_error hs hw⟩

/-! The hold and the blocked predicate. -/

theorem resolveTarget_eq_ok {c : CoreState} {k a : Nat} : resolveTarget c k = .ok a ↔ c.Targets k a :=
  ⟨targets_of_resolveTarget, resolveTarget_of_targets⟩

theorem atStore_iff {s : State} :
    s.atStore = true ↔ (∃ n, s.nextInstr = some (.store n)) ∧ ∃ p, s.core.Targets 1 p := by
  simp only [← resolveTarget_eq_ok, State.atStore]
  cases hi : s.nextInstr with
  | none => simp
  | some i =>
    cases i with
    | store n => cases resolveTarget s.core 1 <;> simp
    | _ => simp

/-- The blocked predicate, from the rule's own words (R94). -/
theorem blocked_iff {s : State} :
    s.blocked = true ↔
      s.core.status = .running ∧
        (∃ w n, s.core.mem.read s.core.ip.toInt = some w ∧ decode w = .ok (.store n)) ∧
        (∃ p, s.core.Targets 1 p) ∧ s.inputQueue = [] := by
  rw [State.blocked, Bool.and_eq_true, atStore_iff, List.isEmpty_iff]
  simp only [nextInstr_eq_some]
  constructor
  · rintro ⟨⟨⟨n, hs, w, hw, hi⟩, ht⟩, hq⟩
    exact ⟨hs, ⟨w, n, hw, hi⟩, ht, hq⟩
  · rintro ⟨hs, ⟨w, n, hw, hi⟩, ht, hq⟩
    exact ⟨⟨⟨n, hs, w, hw, hi⟩, ht⟩, hq⟩

/-- A store whose target resolves holds on an empty input queue (R93). -/
theorem exec_store_of_inputQueue_nil {n : Nat} {s : State} {p : Nat} (ht : s.core.Targets 1 p)
    (hq : s.inputQueue = []) : exec (.store n) s = .next s := by
  rw [exec, execStore, resolveTarget_of_targets ht, hq, State.hold_eq]

theorem coreStep_of_blocked {s : State} (h : s.blocked = true) : coreStep s = .next s := by
  obtain ⟨hs, ⟨w, n, hw, hi⟩, ⟨p, ht⟩, hq⟩ := blocked_iff.1 h
  rw [coreStep_of_decode hs hw hi, exec_store_of_inputQueue_nil ht hq]

theorem State.raise_ne {s : State} (hs : s.core.status = .running) (cause : FaultCause) : s ≠ s.raise cause := by
  intro h
  rw [h] at hs
  cases hs

/-- A core whose step enters a fault is not blocked. -/
theorem blocked_eq_false_of_coreStep {s : State} {cause : FaultCause} (h : coreStep s = .next (s.raise cause)) :
    s.blocked = false := by
  have hs := (coreStep_cases h).1
  by_contra hb
  rw [coreStep_of_blocked (Bool.eq_true_of_not_eq_false hb)] at h
  exact State.raise_ne hs cause (Host.Outcome.next.inj h)

/-- Settles O32: `blocked_iff`, and a step that faults is no hold. -/
theorem blockedMeansStoreOnEmptyQueue : Obligations.BlockedMeansStoreOnEmptyQueue := by
  intro s
  refine ⟨blocked_iff, fun w hs hw => ⟨fun e he => ?_, fun n e hi he => ?_⟩⟩
  · have hstep := coreStep_of_decode_error hs hw he
    exact ⟨blocked_eq_false_of_coreStep hstep, hstep⟩
  · have hstep : coreStep s = .next (s.raise e) :=
      (coreStep_of_decode hs hw hi).trans (exec_of_firstFault (.here he))
    exact ⟨blocked_eq_false_of_coreStep hstep, hstep⟩

/-- Settles O33: fault entry changes the status and a completion the trace, so only the hold changes nothing. -/
theorem stepChangesNothingExactlyWhenBlocked : Obligations.StepChangesNothingExactlyWhenBlocked := by
  intro s
  refine ⟨fun h => ?_, coreStep_of_blocked⟩
  obtain ⟨hs, ⟨e, he⟩ | ⟨w, i, hw, hi, ⟨-, hq, n, p, rfl, ht⟩ | hc⟩⟩ := coreStep_ends h
  · exact absurd he (State.raise_ne hs e)
  · exact blocked_iff.2 ⟨hs, ⟨w, n, hw, hi⟩, ⟨p, ht⟩, hq⟩
  · exact absurd rfl hc.trace_ne

/-! The trace. -/

/-- Settles O30: a completion logs its one record (`Completes.logged`), whose fields are those of the word. -/
theorem oneTraceRecordPerCompletedStep : Obligations.OneTraceRecordPerCompletedStep := by
  intro s t h
  obtain ⟨hs, ⟨e, rfl⟩ | ⟨w, i, hw, hi, ⟨rfl, -⟩ | hc⟩⟩ := coreStep_ends h
  · exact .inl ⟨rfl, .inr rfl⟩
  · exact .inl ⟨rfl, .inl rfl⟩
  · obtain ⟨-, hcode, hmode⟩ := decode_fields hi
    refine .inr ⟨w, i, hw, hi, hc.not_faulted hs, ?_⟩
    rw [← hcode, ← hmode]
    exact hc.logged

end Sys2Proof.Machine
end

section
/-! What a core's step does depends on `ip`, memory and the head of the input queue alone (R95): first what each part
reads, then a relation between two runs that every operation of a step keeps. -/

namespace Sys2Proof.Machine

/-! Fetch and operand resolution read `ip` and memory only. -/

section Reads

variable {c d : CoreState} (hip : c.ip = d.ip) (hm : c.mem = d.mem)
include hip hm

theorem fetch_congr : c.fetch = d.fetch := by
  simp only [CoreState.fetch, hip, hm]

theorem resolvePosition_congr (k : Nat) : resolvePosition c k = resolvePosition d k := by
  simp only [resolvePosition, CoreState.slot, hip, hm]

theorem resolve_congr (k : Nat) (m : Mode) : resolve c k m = resolve d k m := by
  cases m with
  | position => simp only [resolve, resolvePosition_congr hip hm]
  | immediate => simp only [resolve, resolveImmediate, CoreState.slot, hip, hm]

theorem resolveTarget_congr (k : Nat) : resolveTarget c k = resolveTarget d k := by
  simp only [resolveTarget, resolvePosition_congr hip hm]

theorem resolveF2_congr (a b : Mode) : resolveF2 c a b = resolveF2 d a b := by
  simp only [resolveF2, resolve_congr hip hm]

theorem resolveF3_congr (a b : Mode) : resolveF3 c a b = resolveF3 d a b := by
  simp only [resolveF3, resolveF2_congr hip hm, resolveTarget_congr hip hm]

end Reads

/-! What each kind of step does to the queues (R140, R141). -/

theorem queueTraffic_refl (s : State) : s.QueueTraffic s [] [] := by
  intro q
  simp

theorem queueTraffic_inPop {s : State} (hq : Sparse.wf [] s.queues) {v : Word} (hv : s.inputQueue.head? = some v) :
    s.QueueTraffic s.inPop [v] [] := by
  obtain ⟨rest, hrest⟩ := List.head?_eq_some_iff.1 hv
  intro q
  by_cases hin : q = s.core.inQ
  · subst hin
    have htail : s.inPop.queue s.core.inQ = s.inputQueue.tail := State.queue_setQueue_same hq _ _
    rw [htail, hrest, List.tail_cons, if_pos rfl, ite_self, List.append_nil]
    exact hrest
  · have hsame : s.inPop.queue q = s.queue q := State.queue_setQueue_ne s hin _
    simp [hsame, hin]

theorem queueTraffic_outPush {s : State} (hq : Sparse.wf [] s.queues) (x : Word) :
    s.QueueTraffic (s.outPush x) [] [x] := by
  intro q
  by_cases hout : q = s.core.outQ
  · subst hout
    have hpush : (s.outPush x).queue s.core.outQ = s.queue s.core.outQ ++ [x] := State.queue_setQueue_same hq _ _
    simp [hpush]
  · have hsame : (s.outPush x).queue q = s.queue q := State.queue_setQueue_ne s hout _
    simp [hsame, hout]

/-! Two runs side by side. -/

/-- What has happened from `s` to `u` is what has happened from `t` to `v`, as far as the active core shows: `ip`,
memory, status, the record of a fault, the appended trace records and the queue traffic. -/
structure SameEffect (s u t v : State) : Prop where
  ip : u.core.ip = v.core.ip
  mem : u.core.mem = v.core.mem
  status : u.core.status = v.core.status
  fault : u.core.status = .faulted → u.core.fault = v.core.fault
  trace : ∃ more, u.core.trace = s.core.trace ++ more ∧ v.core.trace = t.core.trace ++ more
  traffic : ∃ popped pushed, (Sparse.wf [] s.queues → s.QueueTraffic u popped pushed) ∧
    (Sparse.wf [] t.queues → t.QueueTraffic v popped pushed)

/-- Before anything has happened: two Running cores with the same `ip` and memory. -/
theorem SameEffect.start {s t : State} (hs : s.core.status = .running) (ht : t.core.status = .running)
    (hip : s.core.ip = t.core.ip) (hm : s.core.mem = t.core.mem) : SameEffect s s t t where
  ip := hip
  mem := hm
  status := hs.trans ht.symm
  fault hf := by rw [hs] at hf; cases hf
  trace := ⟨[], by simp⟩
  traffic := ⟨[], [], fun _ => queueTraffic_refl s, fun _ => queueTraffic_refl t⟩

section Operations

variable {s u t v : State}

theorem SameEffect.raise (h : SameEffect s u t v) (cause : FaultCause) :
    SameEffect s (u.raise cause) t (v.raise cause) where
  ip := h.ip
  mem := h.mem
  status := rfl
  fault _ := by rw [State.raise_core_fault, State.raise_core_fault, h.ip]
  trace := h.trace
  traffic := h.traffic

theorem SameEffect.writeMem (h : SameEffect s u t v) (a : Nat) (x : Word) :
    SameEffect s (u.writeMem a x) t (v.writeMem a x) where
  ip := h.ip
  mem := congrArg (·.write a x) h.mem
  status := h.status
  fault := h.fault
  trace := h.trace
  traffic := h.traffic

theorem SameEffect.retire (h : SameEffect s u t v) (m : Mnemonic) (mode : Nat) (nextIp : Word) :
    SameEffect s (u.retire m mode nextIp) t (v.retire m mode nextIp) where
  ip := rfl
  mem := h.mem
  status := h.status
  fault := h.fault
  trace := by
    obtain ⟨more, hu, hv⟩ := h.trace
    exact ⟨more ++ [⟨u.core.ip, m.code, mode, m⟩], by simp [hu], by simp [hv, h.ip]⟩
  traffic := h.traffic

theorem SameEffect.retireNext (h : SameEffect s u t v) (m : Mnemonic) (mode : Nat) :
    SameEffect s (u.retireNext m mode) t (v.retireNext m mode) := by
  have hadv : u.core.advanced m.params = v.core.advanced m.params := by
    rw [CoreState.advanced, CoreState.advanced, h.ip]
  rw [State.retireNext, State.retireNext, hadv]
  exact h.retire m mode _

theorem SameEffect.setHalted (h : SameEffect s u t v) : SameEffect s u.setHalted t v.setHalted where
  ip := h.ip
  mem := h.mem
  status := rfl
  fault hf := by cases hf
  trace := h.trace
  traffic := h.traffic

end Operations

section Runs

variable {s t : State}

theorem SameEffect.inPop (h : SameEffect s s t t) {v : Word} (hs : s.inputQueue.head? = some v)
    (ht : t.inputQueue.head? = some v) : SameEffect s s.inPop t t.inPop where
  ip := h.ip
  mem := h.mem
  status := h.status
  fault := h.fault
  trace := h.trace
  traffic := ⟨[v], [], fun hq => queueTraffic_inPop hq hs, fun hq => queueTraffic_inPop hq ht⟩

theorem SameEffect.outPush (h : SameEffect s s t t) (x : Word) : SameEffect s (s.outPush x) t (t.outPush x) where
  ip := h.ip
  mem := h.mem
  status := h.status
  fault := h.fault
  trace := h.trace
  traffic := ⟨[], [x], fun hq => queueTraffic_outPush hq x, fun hq => queueTraffic_outPush hq x⟩

/-- `run` answers next states for `s` and `t`, with the same effect. -/
def SameRun (s t : State) (run : State → Host.Outcome State Fault Refusal) : Prop :=
  ∃ s' t', run s = .next s' ∧ run t = .next t' ∧ SameEffect s s' t t'

theorem execF3_sameRun (h : SameEffect s s t t) (m : Mnemonic) (f : Word → Word → Except FaultCause Word)
    (a b : Mode) (n : Nat) : SameRun s t (execF3 m f a b n) := by
  simp only [SameRun, execF3, resolveF3_congr h.ip h.mem]
  cases resolveF3 t.core a b with
  | error e => exact ⟨_, _, rfl, rfl, h.raise e⟩
  | ok v =>
    obtain ⟨x, y, p⟩ := v
    cases hr : f x y with
    | error e => simp only [hr]; exact ⟨_, _, rfl, rfl, h.raise e⟩
    | ok r => simp only [hr]; exact ⟨_, _, rfl, rfl, (h.writeMem p r).retireNext _ _⟩

theorem execF2_sameRun (h : SameEffect s s t t) (m : Mnemonic) (taken : Word → Bool) (a b : Mode) (n : Nat) :
    SameRun s t (execF2 m taken a b n) := by
  simp only [SameRun, execF2, resolveF2_congr h.ip h.mem]
  cases resolveF2 t.core a b with
  | error e => exact ⟨_, _, rfl, rfl, h.raise e⟩
  | ok v =>
    obtain ⟨x, y⟩ := v
    cases hx : taken x with
    | true => simp only [hx]; exact ⟨_, _, rfl, rfl, h.retire _ _ y⟩
    | false => simp only [hx]; exact ⟨_, _, rfl, rfl, h.retireNext _ _⟩

theorem execStore_sameRun (h : SameEffect s s t t) (hhead : s.inputQueue.head? = t.inputQueue.head?) (n : Nat) :
    SameRun s t (execStore n) := by
  simp only [SameRun, execStore, resolveTarget_congr h.ip h.mem]
  cases resolveTarget t.core 1 with
  | error e => exact ⟨_, _, rfl, rfl, h.raise e⟩
  | ok p =>
    cases hs : s.inputQueue with
    | nil =>
      have ht : t.inputQueue = [] := by simpa [hs] using hhead.symm
      simp only [ht]
      exact ⟨_, _, rfl, rfl, h⟩
    | cons v rest =>
      have ht : t.inputQueue.head? = some v := by simpa [hs] using hhead.symm
      obtain ⟨rest', hrest⟩ := List.head?_eq_some_iff.1 ht
      simp only [hrest]
      exact ⟨_, _, rfl, rfl, ((h.inPop (by rw [hs]; rfl) ht).writeMem p v).retireNext _ _⟩

theorem execOutput_sameRun (h : SameEffect s s t t) (a : Mode) (n : Nat) : SameRun s t (execOutput a n) := by
  simp only [SameRun, execOutput, resolve_congr h.ip h.mem]
  cases resolve t.core 1 a with
  | error e => exact ⟨_, _, rfl, rfl, h.raise e⟩
  | ok p => exact ⟨_, _, rfl, rfl, (h.outPush p.value).retireNext _ _⟩

theorem exec_sameRun (h : SameEffect s s t t) (hhead : s.inputQueue.head? = t.inputQueue.head?) (i : Instr) :
    SameRun s t (exec i) := by
  cases i with
  | add a b n => exact execF3_sameRun h _ _ a b n
  | multiply a b n => exact execF3_sameRun h _ _ a b n
  | store n => exact execStore_sameRun h hhead n
  | output a n => exact execOutput_sameRun h a n
  | jumpIfTrue a b n => exact execF2_sameRun h _ _ a b n
  | jumpIfFalse a b n => exact execF2_sameRun h _ _ a b n
  | lessThan a b n => exact execF3_sameRun h _ (fun x y => .ok (lessResult x y)) a b n
  | equals a b n => exact execF3_sameRun h _ (fun x y => .ok (equalResult x y)) a b n
  | halt n => exact ⟨_, _, rfl, rfl, (h.retireNext _ _).setHalted⟩

theorem coreStep_sameRun (hs : s.core.status = .running) (ht : t.core.status = .running)
    (hip : s.core.ip = t.core.ip) (hm : s.core.mem = t.core.mem)
    (hhead : s.inputQueue.head? = t.inputQueue.head?) : SameRun s t coreStep := by
  have h := SameEffect.start hs ht hip hm
  simp only [SameRun, coreStep, hs, ht, fetch_congr hip hm]
  cases t.core.fetch with
  | error e => exact ⟨_, _, rfl, rfl, h.raise e⟩
  | ok w =>
    cases hw : decode w with
    | error e => simp only [hw]; exact ⟨_, _, rfl, rfl, h.raise _⟩
    | ok i => simp only [hw]; exact exec_sameRun h hhead i

/-! The signals. -/

theorem nextInstr_congr (hstatus : s.core.status = t.core.status) (hip : s.core.ip = t.core.ip)
    (hm : s.core.mem = t.core.mem) : s.nextInstr = t.nextInstr := by
  simp only [State.nextInstr, hstatus, fetch_congr hip hm]

theorem outData_congr (hstatus : s.core.status = t.core.status) (hip : s.core.ip = t.core.ip)
    (hm : s.core.mem = t.core.mem) : s.outData = t.outData := by
  simp only [State.outData, nextInstr_congr hstatus hip hm, resolve_congr hip hm]

theorem atStore_congr (hstatus : s.core.status = t.core.status) (hip : s.core.ip = t.core.ip)
    (hm : s.core.mem = t.core.mem) : s.atStore = t.atStore := by
  simp only [State.atStore, nextInstr_congr hstatus hip hm, resolveTarget_congr hip hm]

theorem inValid_eq_isSome_head? (s : State) : s.inValid = s.inputQueue.head?.isSome := by
  rw [State.inValid]
  cases s.inputQueue <;> rfl

theorem inPopSignal_congr (hstatus : s.core.status = t.core.status) (hip : s.core.ip = t.core.ip)
    (hm : s.core.mem = t.core.mem) (hhead : s.inputQueue.head? = t.inputQueue.head?) :
    s.inPopSignal = t.inPopSignal := by
  simp only [State.inPopSignal, atStore_congr hstatus hip hm, inValid_eq_isSome_head?, hhead]

end Runs

/-- Settles O37: the signals and the step read nothing else, and each operation of a step keeps `SameEffect`. -/
theorem stepDependsOnIpMemoryAndQueueHead : Obligations.StepDependsOnIpMemoryAndQueueHead := by
  intro s t hs ht hip hm hhead
  have hstatus := hs.trans ht.symm
  obtain ⟨s', t', hs', ht', hsame⟩ := coreStep_sameRun hs ht hip hm hhead
  exact ⟨outData_congr hstatus hip hm, inPopSignal_congr hstatus hip hm hhead, s', t', hs', ht', hsame.ip, hsame.mem,
    hsame.status, hsame.fault, hsame.trace, hsame.traffic⟩

end Sys2Proof.Machine
end

section
/-! What add, multiply, less-than and equals store, and their frame: the exact result or OverflowError, and what a
completion of format F3 leaves as it was (R13, R89, R100 to R102, R110, R111, R180). -/

namespace Sys2Proof.Machine

/-- The advance past an instruction whose last parameter word lies in a canonical memory is exact (R13). -/
theorem CoreState.toInt_advanced_of_slot_valid {c : CoreState} {n : Nat} (hm : c.mem.wf)
    (hn : c.mem.valid (c.slot n)) : (c.advanced n).toInt = c.ip.toInt + 1 + n := by
  obtain ⟨-, -, hsize⟩ := hm
  obtain ⟨h0, h1⟩ := hn
  simp only [CoreState.slot, Config.maxMemory] at h0 h1 hsize
  exact CoreState.toInt_advanced (by simp only [wMin]; omega) (by simp only [wMax]; omega)

theorem CoreState.Targets.slot_valid {c : CoreState} {k p : Nat} (h : c.Targets k p) : c.mem.valid (c.slot k) := by
  obtain ⟨v, hv, -⟩ := h
  exact Memory.valid_of_read hv

/-! The result. -/

/-- An F3 instruction whose operands resolve and whose result is computed stores it in its target, advances by 4 and
logs its record (R86). -/
theorem execF3_storesResult {m : Mnemonic} {f : Word → Word → Except FaultCause Word} {a b : Mode} {n : Nat}
    {s : State} {x y r : Word} {p : Nat} (hparams : m.params = 3) (hm : s.core.mem.wf) (hx : s.core.Reads 1 a x)
    (hy : s.core.Reads 2 b y) (hp : s.core.Targets 3 p) (hr : f x y = .ok r) :
    ∃ t, execF3 m f a b n s = .next t ∧ t.core.mem.read p = some r ∧ t.core.ip.toInt = s.core.ip.toInt + 4 ∧
      t.core.trace = s.core.trace ++ [⟨s.core.ip, m.code, modeF3 a b n, m⟩] := by
  refine ⟨_, execF3_completes hx hy hp hr, Memory.read_write_same hm hp.lt r, ?_, rfl⟩
  calc (s.core.advanced m.params).toInt
    _ = (s.core.advanced 3).toInt := by rw [hparams]
    _ = s.core.ip.toInt + 1 + 3 := CoreState.toInt_advanced_of_slot_valid hm hp.slot_valid
    _ = s.core.ip.toInt + 4 := by omega

/-- An F3 instruction whose computation faults enters that fault (R170). -/
theorem execF3_raises {m : Mnemonic} {f : Word → Word → Except FaultCause Word} {a b : Mode} {n : Nat} {s : State}
    {x y : Word} {p : Nat} {e : FaultCause} (hx : s.core.Reads 1 a x) (hy : s.core.Reads 2 b y)
    (hp : s.core.Targets 3 p) (he : f x y = .error e) : execF3 m f a b n s = .next (s.raise e) := by
  simp [execF3, resolveF3_ok.2 ⟨hx, hy, hp⟩, he]

/-- An F3 instruction with a range check stores the exact result when it is a Word, and raises OverflowError when it is
not (R102). -/
theorem execF3_checked {m : Mnemonic} {exact : Word → Word → Int} {a b : Mode} {n : Nat} {s : State} {x y : Word}
    {p : Nat} (hparams : m.params = 3) (hm : s.core.mem.wf) (hx : s.core.Reads 1 a x) (hy : s.core.Reads 2 b y)
    (hp : s.core.Targets 3 p) :
    (wMin ≤ exact x y ∧ exact x y ≤ wMax →
      ∃ t r, execF3 m (checked m exact) a b n s = .next t ∧ t.core.mem.read p = some r ∧ r.toInt = exact x y ∧
        t.core.ip.toInt = s.core.ip.toInt + 4 ∧
        t.core.trace = s.core.trace ++ [⟨s.core.ip, m.code, modeF3 a b n, m⟩]) ∧
    (exact x y < wMin ∨ wMax < exact x y →
      execF3 m (checked m exact) a b n s = .next (s.faultedWith (.overflow m.code x y))) := by
  refine ⟨?_, fun hout => execF3_raises hx hy hp (checked_of_overflow hout)⟩
  rintro ⟨hmin, hmax⟩
  obtain ⟨r, hr, hexact⟩ := checked_of_range (m := m) hmin hmax
  obtain ⟨t, ht, hread, hip, htrace⟩ := execF3_storesResult hparams hm hx hy hp hr
  exact ⟨t, r, ht, hread, hexact, hip, htrace⟩

/-- Settles O11: add is the range-checked F3 instruction of the exact sum. -/
theorem addStoresExactSumOrOverflows : Obligations.AddStoresExactSumOrOverflows := by
  intro a b n s x y p hm hx hy hp
  exact execF3_checked (m := .add) (exact := sum) rfl hm hx hy hp

/-- Settles O12: multiply is the range-checked F3 instruction of the exact product. -/
theorem multiplyStoresExactProductOrOverflows : Obligations.MultiplyStoresExactProductOrOverflows := by
  intro a b n s x y p hm hx hy hp
  exact execF3_checked (m := .multiply) (exact := product) rfl hm hx hy hp

/-! The frame. -/

/-- A completion of format F3 writes one Word through parameter 3, then advances and logs (R86). -/
theorem Completes.eq_of_isF3 {i : Instr} {s t : State} (h : Completes i s t) (hi : i.isF3 = true) :
    ∃ p r, s.core.Targets 3 p ∧ t = (s.writeMem p r).retireNext i.mnemonic i.modeWord := by
  have hnoJump := Instr.targetMode_of_isF3 hi
  cases h with
  | result p r _ target eq => exact ⟨p, r, target, eq⟩
  | input n p v rest kind _ _ _ => subst kind; cases hi
  | output a n x kind _ _ => subst kind; cases hi
  | jump b y kind _ _ _ => simp [hnoJump] at kind
  | fallThrough b kind _ _ => simp [hnoJump] at kind
  | halt n kind _ => subst kind; cases hi

/-- Settles O21: a completion of format F3 is one write through parameter 3, and that changes one cell of memory. -/
theorem computingInstructionsFrame : Obligations.ComputingInstructionsFrame := by
  intro i s t hi h
  obtain ⟨e, rfl⟩ | ⟨-, -, n, p, rfl, -⟩ | hc := exec_cases h
  · exact .inl ⟨e, s.raise_eq_faultedWith e⟩
  · cases hi
  · obtain ⟨p, r, hp, rfl⟩ := hc.eq_of_isF3 hi
    refine .inr ⟨exec_frame h, rfl, rfl, rfl, hc.logged, fun q hq a ha => ?_⟩
    obtain rfl : p = q := Except.ok.inj ((resolveTarget_of_targets hp).symm.trans hq)
    exact Memory.read_write_ne s.core.mem ha r

end Sys2Proof.Machine
end

section
/-! What the comparisons compute, and that less-than and equals store it and always complete (R110, R111). -/

namespace Sys2Proof.Machine

/-! The comparisons, case by case. -/

section Comparisons

variable {x y : Word}

theorem lessResult_of_lt (h : x.toInt < y.toInt) : lessResult x y = 1 := if_pos h

theorem lessResult_of_le (h : y.toInt ≤ x.toInt) : lessResult x y = 0 := if_neg h.not_gt

theorem equalResult_of_eq (h : x.toInt = y.toInt) : equalResult x y = 1 := if_pos h

theorem equalResult_of_ne (h : x.toInt ≠ y.toInt) : equalResult x y = 0 := if_neg h

end Comparisons

/-- Settles O13: less-than is the F3 instruction whose result is always computed, and is the strict comparison. -/
theorem lessThanStoresComparison : Obligations.LessThanStoresComparison := by
  intro a b n s x y p hm hx hy hp
  obtain ⟨t, ht, hread, hip, htrace⟩ := execF3_storesResult (m := .lessThan) (n := n)
    (f := fun x y => .ok (lessResult x y)) rfl hm hx hy hp rfl
  refine ⟨t, ht, fun hlt => ?_, fun hle => ?_, hip, htrace⟩
  · rw [hread, lessResult_of_lt hlt]
  · rw [hread, lessResult_of_le hle]

/-- Settles O14: equals is the F3 instruction whose result is always computed, and is the test of equality. -/
theorem equalsStoresComparison : Obligations.EqualsStoresComparison := by
  intro a b n s x y p hm hx hy hp
  obtain ⟨t, ht, hread, hip, htrace⟩ := execF3_storesResult (m := .equals) (n := n)
    (f := fun x y => .ok (equalResult x y)) rfl hm hx hy hp rfl
  refine ⟨t, ht, fun heq => ?_, fun hne => ?_, hip, htrace⟩
  · rw [hread, equalResult_of_eq heq]
  · rw [hread, equalResult_of_ne hne]

end Sys2Proof.Machine
end

section
/-! The jumps: both branches of format F2, the step after a taken jump to a target outside memory, and the frame of
the instructions that store nothing (R13, R86, R120 to R122, R132, R150, R180). -/

namespace Sys2Proof.Machine

/-! The test of a jump, and the parameters it reads. -/

theorem nonZero_of_ne {x : Word} (h : x.toInt ≠ 0) : nonZero x = true := decide_eq_true h

theorem nonZero_of_eq {x : Word} (h : x.toInt = 0) : nonZero x = false := decide_eq_false (not_not_intro h)

theorem CoreState.Reads.slot_valid {c : CoreState} {k : Nat} {d : Mode} {x : Word} (h : c.Reads k d x) :
    c.mem.valid (c.slot k) := by
  cases d with
  | immediate => exact Memory.valid_of_read h
  | position =>
    obtain ⟨v, hv, -⟩ := h
    exact Memory.valid_of_read hv

/-! The branches. -/

section Branches

variable {m : Mnemonic} {taken : Word → Bool} {a b : Mode} {n : Nat} {s : State} {x y : Word}

theorem execF2_of_taken (hx : s.core.Reads 1 a x) (hy : s.core.Reads 2 b y) (ht : taken x = true) :
    execF2 m taken a b n s = .next (s.retire m (modeF2 a b n) y) := by
  rw [execF2_completes hx hy, if_pos ht]

theorem execF2_of_not_taken (hx : s.core.Reads 1 a x) (hy : s.core.Reads 2 b y) (ht : taken x = false) :
    execF2 m taken a b n s = .next (s.retireNext m (modeF2 a b n)) := by
  rw [execF2_completes hx hy, ht, if_neg Bool.false_ne_true]

/-- An F2 instruction whose operands resolve loads its target when the test holds, advances by 3 when it does not, and
logs its record either way (R86). -/
theorem execF2_branches (hparams : m.params = 2) (hm : s.core.mem.wf) (hx : s.core.Reads 1 a x)
    (hy : s.core.Reads 2 b y) :
    ∃ t, execF2 m taken a b n s = .next t ∧ (taken x = true → t.core.ip = y) ∧
      (taken x = false → t.core.ip.toInt = s.core.ip.toInt + 3) ∧
      t.core.trace = s.core.trace ++ [⟨s.core.ip, m.code, modeF2 a b n, m⟩] := by
  cases ht : taken x with
  | true => exact ⟨_, execF2_of_taken hx hy ht, fun _ => rfl, nofun, rfl⟩
  | false =>
    refine ⟨_, execF2_of_not_taken hx hy ht, nofun, fun _ => ?_, rfl⟩
    calc (s.core.advanced m.params).toInt
      _ = (s.core.advanced 2).toInt := by rw [hparams]
      _ = s.core.ip.toInt + 1 + 2 := CoreState.toInt_advanced_of_slot_valid hm hy.slot_valid
      _ = s.core.ip.toInt + 3 := by omega

/-- The target is not validated: a taken jump out of memory completes, and the fault is the next fetch's (R122). -/
theorem execF2_taken_out_of_memory (ha : s.agenda = []) (hs : s.core.status = .running) (hx : s.core.Reads 1 a x)
    (hy : s.core.Reads 2 b y) (hout : y.toInt < 0 ∨ (s.core.mem.size : Int) ≤ y.toInt) (ht : taken x = true) :
    ∃ t, execF2 m taken a b n s = .next t ∧
      t.core.trace = s.core.trace ++ [⟨s.core.ip, m.code, modeF2 a b n, m⟩] ∧ t.core.ip = y ∧
      step t = .next (t.faultedWith (.fetch y.toInt)) := by
  refine ⟨_, execF2_of_taken hx hy ht, rfl, rfl, ?_⟩
  rw [step_nil (s := s.retire m (modeF2 a b n) y) ha]
  exact fetchOutsideMemoryFaults (s.retire m (modeF2 a b n) y) hs hout

end Branches

/-- Settles O18: jump-if-true is the F2 instruction whose test is `nonZero`. -/
theorem jumpIfTrueBranches : Obligations.JumpIfTrueBranches := by
  intro a b n s x y hm hx hy
  obtain ⟨t, ht, hjump, hfall, htrace⟩ := execF2_branches (m := .jumpIfTrue) (n := n) (taken := nonZero) rfl hm hx hy
  exact ⟨t, ht, fun hne => hjump (nonZero_of_ne hne), fun heq => hfall (nonZero_of_eq heq), htrace⟩

/-- Settles O19: jump-if-false is the F2 instruction whose test is the negation of `nonZero`. -/
theorem jumpIfFalseBranches : Obligations.JumpIfFalseBranches := by
  intro a b n s x y hm hx hy
  obtain ⟨t, ht, hjump, hfall, htrace⟩ := execF2_branches (m := .jumpIfFalse) (n := n)
    (taken := fun x => !nonZero x) rfl hm hx hy
  refine ⟨t, ht, fun heq => hjump ?_, fun hne => hfall ?_, htrace⟩
  · rw [nonZero_of_eq heq, Bool.not_false]
  · rw [nonZero_of_ne hne, Bool.not_true]

/-- Settles O39: each jump is the F2 instruction of its test, and the test holds. -/
theorem badJumpTargetFaultsAtNextFetch : Obligations.BadJumpTargetFaultsAtNextFetch := by
  intro a b n s x y ha hs hx hy hout
  refine ⟨fun hne => ?_, fun heq => ?_⟩
  · exact execF2_taken_out_of_memory (m := .jumpIfTrue) ha hs hx hy hout (nonZero_of_ne hne)
  · refine execF2_taken_out_of_memory (m := .jumpIfFalse) (taken := fun x => !nonZero x) ha hs hx hy hout ?_
    rw [nonZero_of_eq heq, Bool.not_false]

/-! What the instructions that store nothing leave as it was. -/

/-- Only format F3 and store write memory. -/
theorem Completes.mem_eq {i : Instr} {s t : State} (h : Completes i s t) (hf3 : i.isF3 = false)
    (hstore : ∀ n, i ≠ .store n) : t.core.mem = s.core.mem := by
  cases h with
  | result p r kind _ _ => rw [hf3] at kind; cases kind
  | input n p v rest kind _ _ _ => exact absurd kind (hstore n)
  | output a n x _ _ eq => subst eq; rfl
  | jump b y _ _ _ eq => subst eq; rfl
  | fallThrough b _ _ eq => subst eq; rfl
  | halt n _ eq => subst eq; rfl

/-- Only store and output touch a queue. -/
theorem Completes.queues_eq {i : Instr} {s t : State} (h : Completes i s t) (hstore : ∀ n, i ≠ .store n)
    (houtput : ∀ a n, i ≠ .output a n) : t.queues = s.queues := by
  cases h with
  | result p r _ _ eq => subst eq; rfl
  | input n p v rest kind _ _ _ => exact absurd kind (hstore n)
  | output a n x kind _ _ => exact absurd kind (houtput a n)
  | jump b y _ _ _ eq => subst eq; rfl
  | fallThrough b _ _ eq => subst eq; rfl
  | halt n _ eq => subst eq; rfl

/-- Every completion but a store's leaves the queues other than the core's output queue as they were. -/
theorem Completes.queue_of_ne_outQ {i : Instr} {s t : State} (h : Completes i s t) (hstore : ∀ n, i ≠ .store n)
    {q : Nat} (hq : q ≠ s.core.outQ) : t.queue q = s.queue q := by
  cases h with
  | result p r _ _ eq => subst eq; rfl
  | input n p v rest kind _ _ _ => exact absurd kind (hstore n)
  | output a n x _ _ eq => subst eq; exact State.queue_setQueue_ne s hq _
  | jump b y _ _ _ eq => subst eq; rfl
  | fallThrough b _ _ eq => subst eq; rfl
  | halt n _ eq => subst eq; rfl

/-- Settles O23: these instructions enter a fault or complete, and each clause is a law of completions. -/
theorem outputJumpHaltFrame : Obligations.OutputJumpHaltFrame := by
  intro i s t hf3 hstore h
  obtain ⟨e, rfl⟩ | ⟨-, -, n, p, rfl, -⟩ | hc := exec_cases h
  · exact .inl ⟨e, s.raise_eq_faultedWith e⟩
  · exact absurd rfl (hstore n)
  · refine .inr ⟨exec_frame h, hc.mem_eq hf3 hstore, hc.fault, hc.logged, fun hhalt => ?_, hc.queues_eq hstore,
      fun q hq => hc.queue_of_ne_outQ hstore hq⟩
    have hne : i.mnemonic ≠ .halt := fun hm => (Instr.mnemonic_eq_halt.1 hm).elim hhalt
    rw [hc.status, if_neg hne]

end Sys2Proof.Machine
end

section
/-! store and output: the completions of both, the frame of store, and the queue signals, which name the traffic of a
core's step (R89, R93, R131, R132, R140, R141, R143, R145, R180). -/

namespace Sys2Proof.Machine

/-! The two queue ends. -/

theorem queue_inPop {s : State} (hwf : Sparse.wf [] s.queues) {v : Word} {rest : List Word}
    (hq : s.inputQueue = v :: rest) : s.inPop.queue s.core.inQ = rest := by
  calc s.inPop.queue s.core.inQ
    _ = s.inputQueue.tail := State.queue_setQueue_same hwf _ _
    _ = rest := by rw [hq, List.tail_cons]

theorem queue_outPush {s : State} (hwf : Sparse.wf [] s.queues) (x : Word) :
    (s.outPush x).queue s.core.outQ = s.queue s.core.outQ ++ [x] := State.queue_setQueue_same hwf _ _

/-! The completions. -/

/-- An instruction of one parameter, whose word lies in a canonical memory, is two cells long (R13). -/
theorem CoreState.toInt_advanced_one {c : CoreState} (hm : c.mem.wf) (hslot : c.mem.valid (c.slot 1)) :
    (c.advanced 1).toInt = c.ip.toInt + 2 := by
  have hexact := CoreState.toInt_advanced_of_slot_valid hm hslot
  omega

/-- An output whose operand resolves completes: the push always succeeds (R132, R143). -/
theorem exec_output_of_reads {a : Mode} {n : Nat} {s : State} {x : Word} (hx : s.core.Reads 1 a x) :
    exec (.output a n) s = .next ((s.outPush x).retireNext .output (modeF1R a n)) := by
  obtain ⟨p, hp, rfl⟩ := resolve_of_reads hx
  rw [exec, execOutput, hp]

/-- Settles O16: the hold of `exec_store_of_inputQueue_nil`. -/
theorem storeHoldsOnEmptyQueue : Obligations.StoreHoldsOnEmptyQueue :=
  fun _ _ _ ht hq => exec_store_of_inputQueue_nil ht hq

/-- Settles O15: the completed store, read back in memory, in the input queue, in `ip` and in the trace. -/
theorem storeMovesQueueHeadToTarget : Obligations.StoreMovesQueueHeadToTarget := by
  intro n s p v rest hm hwf ht hq
  have hip : (s.core.advanced 1).toInt = s.core.ip.toInt + 2 := CoreState.toInt_advanced_one hm ht.slot_valid
  exact ⟨_, exec_store_of_inputQueue_cons ht hq, Memory.read_write_same hm ht.lt v, queue_inPop hwf hq, hip, rfl⟩

/-- Settles O17: the completed output, read back in the output queue, in `ip` and in the trace. -/
theorem outputAppendsToOutputQueue : Obligations.OutputAppendsToOutputQueue := by
  intro a n s x hm hwf hx
  exact ⟨_, exec_output_of_reads hx, queue_outPush hwf x, CoreState.toInt_advanced_one hm hx.slot_valid, rfl⟩

/-- Settles O22: a store faults, holds, or completes by one pop of its input queue and one write of its target. -/
theorem storeFrame : Obligations.StoreFrame := by
  intro n s t h
  obtain ⟨e, rfl⟩ | ⟨p, hp, ⟨hq, rfl⟩ | ⟨v, rest, -, rfl⟩⟩ := execStore_cases h
  · exact .inl ⟨e, s.raise_eq_faultedWith e⟩
  · exact .inr (.inl ⟨rfl, hq⟩)
  · refine .inr (.inr ⟨exec_frame h, rfl, rfl, rfl, fun q hne => State.queue_setQueue_ne s hne _, fun p' hp' a ha => ?_⟩)
    obtain rfl : p = p' := Except.ok.inj ((resolveTarget_of_targets hp).symm.trans hp')
    exact Memory.read_write_ne s.core.mem ha v

/-! What the queue signals say of the next instruction, and the steps they announce (R145). -/

theorem coreStep_of_nextInstr {s : State} {i : Instr} (h : s.nextInstr = some i) : coreStep s = exec i s := by
  obtain ⟨hs, w, hw, hi⟩ := nextInstr_eq_some.1 h
  exact coreStep_of_decode hs hw hi

/-- `in_pop` is the signal of a store whose target resolves and whose input queue has a head. -/
theorem inPopSignal_iff {s : State} :
    s.inPopSignal = true ↔
      (∃ n, s.nextInstr = some (.store n)) ∧ (∃ p, s.core.Targets 1 p) ∧ ∃ v rest, s.inputQueue = v :: rest := by
  rw [State.inPopSignal, Bool.and_eq_true, atStore_iff, and_assoc, State.inValid]
  cases s.inputQueue <;> simp

/-- `out_push` is the signal of an output whose operand resolves, and `out_data` is the operand's value. -/
theorem outData_eq_some {s : State} {x : Word} :
    s.outData = some x ↔ ∃ a n, s.nextInstr = some (.output a n) ∧ s.core.Reads 1 a x := by
  constructor
  · intro h
    rw [State.outData] at h
    split at h
    case h_1 a n hi =>
      cases hp : resolve s.core 1 a with
      | error e => simp [hp] at h
      | ok p =>
        obtain rfl : p.value = x := by simpa [hp] using h
        exact ⟨a, n, hi, reads_of_resolve hp⟩
    case h_2 => cases h
  · rintro ⟨a, n, hi, hx⟩
    obtain ⟨p, hp, rfl⟩ := resolve_of_reads hx
    simp [State.outData, hi, hp]

theorem coreStep_of_inPopSignal {s : State} (h : s.inPopSignal = true) :
    ∃ n p v rest, s.inputQueue = v :: rest ∧
      coreStep s = .next ((s.inPop.writeMem p v).retireNext .store (modeF1W n)) := by
  obtain ⟨⟨n, hi⟩, ⟨p, hp⟩, v, rest, hq⟩ := inPopSignal_iff.1 h
  exact ⟨n, p, v, rest, hq, (coreStep_of_nextInstr hi).trans (exec_store_of_inputQueue_cons hp hq)⟩

theorem coreStep_of_outData {s : State} {x : Word} (h : s.outData = some x) :
    ∃ a n, coreStep s = .next ((s.outPush x).retireNext .output (modeF1R a n)) := by
  obtain ⟨a, n, hi, hx⟩ := outData_eq_some.1 h
  exact ⟨a, n, (coreStep_of_nextInstr hi).trans (exec_output_of_reads hx)⟩

/-- A step without a queue signal leaves every queue: a completed store would have asserted `in_pop`, a completed
output `out_push`. -/
theorem coreStep_queues_eq {s t : State} (h : coreStep s = .next t) (hin : s.inPopSignal = false)
    (hout : s.outData = none) : t.queues = s.queues := by
  obtain ⟨hs, ⟨e, rfl⟩ | ⟨w, i, hw, hi, ⟨rfl, -⟩ | hc⟩⟩ := coreStep_ends h
  · rfl
  · rfl
  · have hnext : s.nextInstr = some i := nextInstr_eq_some.2 ⟨hs, w, hw, hi⟩
    cases hc with
    | result p r _ _ eq => subst eq; rfl
    | input n p v rest kind target head _ =>
      subst kind
      rw [inPopSignal_iff.2 ⟨⟨n, hnext⟩, ⟨p, target⟩, v, rest, head⟩] at hin
      cases hin
    | output a n x kind value _ =>
      subst kind
      rw [outData_eq_some.2 ⟨a, n, hnext, value⟩] at hout
      cases hout
    | jump b y _ _ _ eq => subst eq; rfl
    | fallThrough b _ _ eq => subst eq; rfl
    | halt n _ eq => subst eq; rfl

theorem waiting_eq_false_of_inputQueue_cons {s : State} {v : Word} {rest : List Word} (hq : s.inputQueue = v :: rest) :
    s.waiting = false := by
  simp [State.waiting, State.blocked, hq]

/-- Settles O41: each signal fixes the step's end, and a step without one leaves the queues. -/
theorem signalsTellTheQueueTraffic : Obligations.SignalsTellTheQueueTraffic := by
  intro s t hwf h
  refine ⟨fun hin => ?_, fun x hout => ?_, coreStep_queues_eq h⟩
  · obtain ⟨n, p, v, rest, hq, hstep⟩ := coreStep_of_inPopSignal hin
    obtain rfl := Host.Outcome.next.inj (h.symm.trans hstep)
    have hrest : s.inPop.queue s.core.inQ = rest := queue_inPop hwf hq
    exact ⟨v, congrArg List.head? hq, hq.trans (congrArg (v :: ·) hrest.symm), waiting_eq_false_of_inputQueue_cons hq⟩
  · obtain ⟨a, n, hstep⟩ := coreStep_of_outData hout
    obtain rfl := Host.Outcome.next.inj (h.symm.trans hstep)
    exact queue_outPush hwf x

/-! The queue traffic of a step. -/

/-- A core's step pops at most one Word and pushes at most one (R140, R141). -/
theorem coreStep_queueTraffic {s t : State} (hwf : Sparse.wf [] s.queues) (h : coreStep s = .next t) :
    ∃ popped pushed, s.QueueTraffic t popped pushed ∧ popped.length ≤ 1 ∧ pushed.length ≤ 1 := by
  cases hin : s.inPopSignal with
  | true =>
    obtain ⟨n, p, v, rest, hq, hstep⟩ := coreStep_of_inPopSignal hin
    obtain rfl := Host.Outcome.next.inj (h.symm.trans hstep)
    exact ⟨[v], [], queueTraffic_inPop hwf (congrArg List.head? hq), le_rfl, zero_le_one⟩
  | false =>
    cases hout : s.outData with
    | some x =>
      obtain ⟨a, n, hstep⟩ := coreStep_of_outData hout
      obtain rfl := Host.Outcome.next.inj (h.symm.trans hstep)
      exact ⟨[], [x], queueTraffic_outPush hwf x, zero_le_one, le_rfl⟩
    | none =>
      have hqueues := coreStep_queues_eq h hin hout
      exact ⟨[], [], fun q => by simp [State.queue_congr hqueues], zero_le_one, zero_le_one⟩

/-- Settles O40: at one queue, the step's traffic is what it pops there and what it pushes there. -/
theorem queuesAreFifo : Obligations.QueuesAreFifo := by
  intro s t hwf h q
  obtain ⟨popped, pushed, htraffic, hpopped, hpushed⟩ := coreStep_queueTraffic hwf h
  refine ⟨_, _, htraffic q, ?_, ?_, fun hne => (ite_ne_right_iff.1 hne).1, fun hne => (ite_ne_right_iff.1 hne).1⟩
  · split_ifs
    exacts [hpopped, zero_le_one]
  · split_ifs
    exacts [hpushed, zero_le_one]

end Sys2Proof.Machine
end

section
/-! halt, and that a stopped core stays as it is through every move of the system but its own reset (R15, R16, R150,
R151, R171, R185). -/

namespace Sys2Proof.Machine

/-- A halt that lies in a canonical memory is one cell long (R13). -/
theorem CoreState.toInt_advanced_halt {c : CoreState} (hm : c.mem.wf) (hip : c.mem.valid c.ip.toInt) :
    (c.advanced Mnemonic.halt.params).toInt = c.ip.toInt + 1 := by
  obtain ⟨w, hw⟩ := Memory.exists_read.2 hip
  exact (CoreState.toInt_advanced_of_read hm hw .halt).trans (add_zero _)

/-- Settles O20: halt always completes, and its advance by 1 is exact. -/
theorem haltStopsTheCore : Obligations.HaltStopsTheCore := by
  intro n s hm hip
  exact ⟨(s.retireNext .halt n).setHalted, rfl, rfl, CoreState.toInt_advanced_halt hm hip, rfl⟩

/-! Stopped cores. -/

section Stopped

variable {s t : State} {k : Nat} {c : CoreState}

theorem CoreState.stopped.ne_running (hc : c.stopped) : c.status ≠ .running := by
  obtain h | h := hc <;> simp [h]

/-- The core that steps is Running, so a stopped core is one the step does not touch (R151, R171). -/
theorem coreStep_getElem_cores_of_stopped (hk : s.cores[k]? = some c) (hc : c.stopped) (h : coreStep s = .next t) :
    t.cores[k]? = some c := by
  obtain ⟨hbefore, hafter, -⟩ := coreStep_frame h
  have hother : k ≠ s.before.length := by
    rintro rfl
    obtain rfl : s.core = c := Option.some.inj (s.getElem_cores_active.symm.trans hk)
    exact hc.ne_running (coreStep_next_iff.1 ⟨t, h⟩)
  rw [State.getElem_cores_of_ne hbefore hafter hother, hk]

/-- Installing a reset of core `j` leaves every other core (R202). -/
theorem install_reset_getElem_cores_of_ne {u : State} {j : Nat} {d : CoreState} {image : List Word}
    (hf : s.focus j = some u) (hj : j ≠ k) (h : install (u.setCore d) image = .next t) :
    t.cores[k]? = s.cores[k]? := by
  obtain ⟨-, -, rfl⟩ := install_eq_next.1 h
  rw [setCore_cores, focus_before_length hf, focus_cores hf, List.getElem?_set_ne hj]

/-- A construction leaves the cores that were there (R180). -/
theorem install_construct_getElem_cores {d : CoreState} {image : List Word} (hk : s.cores[k]? = some c)
    (h : install { s with before := s.cores, core := d, after := [] } image = .next t) : t.cores[k]? = some c := by
  obtain ⟨-, -, rfl⟩ := install_eq_next.1 h
  obtain ⟨hlt, -⟩ := List.getElem?_eq_some_iff.1 hk
  exact (List.getElem?_append_left hlt).trans hk

/-- Only its own reset changes a stopped core (R151, R171). -/
theorem applyMove_getElem_cores_of_stopped {m : Move} (hk : s.cores[k]? = some c) (hc : c.stopped)
    (h : applyMove m s = .next t) (hm : ∀ image startPos inQ outQ, m ≠ .reset k image startPos inQ outQ) :
    t.cores[k]? = some c := by
  cases m with
  | coreStep j =>
    rw [applyMove] at h
    cases hf : s.focus j with
    | none => simp [hf] at h
    | some u =>
      simp only [hf] at h
      exact coreStep_getElem_cores_of_stopped ((focus_cores hf).symm ▸ hk) hc h
  | hostPush q v =>
    rw [applyMove] at h
    split_ifs at h
    cases h
    exact hk
  | hostPop q =>
    rw [applyMove] at h
    split_ifs at h
    cases h
    exact hk
  | reset j image startPos inQ outQ =>
    rw [applyMove] at h
    cases hf : s.focus j with
    | none => simp [hf] at h
    | some u =>
      simp only [hf] at h
      have hj : j ≠ k := by
        rintro rfl
        exact hm image startPos inQ outQ rfl
      rw [install_reset_getElem_cores_of_ne hf hj h, hk]
  | construct image startPos inQ outQ => exact install_construct_getElem_cores hk h

end Stopped

/-- Settles O35: a step is the active core's or a move of the agenda, and each keeps a stopped core but its reset. -/
theorem onlyResetRevivesAStoppedCore : Obligations.OnlyResetRevivesAStoppedCore := by
  intro s t k c hk hc h hreset
  cases ha : s.agenda with
  | nil => exact coreStep_getElem_cores_of_stopped hk hc (step_nil ha ▸ h)
  | cons m rest =>
    rw [step_cons ha] at h
    refine applyMove_getElem_cores_of_stopped (s := { s with agenda := rest }) hk hc h ?_
    rintro image startPos inQ outQ rfl
    exact hreset image startPos inQ outQ (congrArg List.head? ha)

end Sys2Proof.Machine
end

section
/-! The cores after a scheduled step: it is the named core's own step and replaces that one core (R180, R181), and what
this leaves of faulted and of deadlocked systems (R183 to R185). -/

namespace Sys2Proof.Machine

theorem State.setCore_core_eq {s t : State} (hbefore : t.before = s.before) (hafter : t.after = s.after) :
    t.cores = (s.setCore t.core).cores := by
  rw [State.cores_eq, State.cores_eq, hbefore, hafter]
  rfl

/-- A core's step replaces the active core (R180). -/
theorem coreStep_cores {s t : State} (h : coreStep s = .next t) :
    t.cores = s.cores.set s.before.length t.core := by
  obtain ⟨hbefore, hafter, -⟩ := coreStep_frame h
  rw [State.setCore_core_eq hbefore hafter, setCore_cores]

/-- A step of the named core replaces that core. -/
theorem focus_coreStep_cores {s u t : State} {k : Nat} (hf : s.focus k = some u) (h : coreStep u = .next t) :
    t.cores = s.cores.set k t.core := by
  rw [coreStep_cores h, focus_before_length hf, focus_cores hf]

/-- A core's move is the step of the named core, made the active one (R181). -/
theorem applyMove_coreStep_eq_next {s t : State} {k : Nat} :
    applyMove (.coreStep k) s = .next t ↔ ∃ u, s.focus k = some u ∧ coreStep u = .next t := by
  rw [applyMove]
  cases s.focus k <;> simp

/-- Taking a move off the agenda and making core `k` the active one changes nothing else. -/
theorem focus_after_move {s : State} {k : Nat} {c : CoreState} (hc : s.cores[k]? = some c) (rest : List Move) :
    ∃ u : State, State.focus { s with agenda := rest } k = some u ∧ u.cores = s.cores ∧ u.before.length = k ∧
      u.core = c ∧ u.queues = s.queues ∧ u.agenda = rest := by
  have hf : State.focus { s with agenda := rest } k = some _ := focus_eq_some.2 ⟨c, hc, rfl⟩
  have hcores := focus_cores hf
  exact ⟨_, hf, hcores, focus_before_length hf, rfl, rfl, rfl⟩

/-- Settles O25: the state is the one with the move taken off and core `k` made the active one. -/
theorem scheduledStepIsThatCoresStep : Obligations.ScheduledStepIsThatCoresStep := by
  intro s k rest c ha hc
  obtain ⟨u, hf, hu⟩ := focus_after_move hc rest
  exact ⟨u, by rw [step_cons ha, applyMove, hf], hu⟩

/-- Settles O42: the step replaces core `k`, and `coreStep_frame` says what that core keeps. -/
theorem stepTouchesOnlyItsCore : Obligations.StepTouchesOnlyItsCore := by
  intro s t k rest c ha hc h
  obtain ⟨u, hstep, hcores, hk, rfl, -, hagenda⟩ := scheduledStepIsThatCoresStep s k rest c ha hc
  rw [hstep] at h
  obtain ⟨-, -, hagenda', hin, hout, hsize⟩ := coreStep_frame h
  have hset : t.cores = s.cores.set k t.core := by rw [coreStep_cores h, hcores, hk]
  obtain ⟨hlt, -⟩ := List.getElem?_eq_some_iff.1 hc
  refine ⟨hagenda'.trans hagenda, ?_, fun j hj => ?_, t.core, ?_, hsize, hin, hout⟩
  · rw [hset, List.length_set]
  · rw [hset, List.getElem?_set_ne hj.symm]
  · rw [hset, List.getElem?_set_self hlt]

/-- Settles O36: a Faulted core is stopped, so only its own reset changes it. -/
theorem faultedMemberPreventsCompletion : Obligations.FaultedMemberPreventsCompletion := by
  intro s t hfault hstep hreset
  obtain ⟨c, hc, hstatus⟩ : ∃ c ∈ s.cores, c.status = .faulted := by simpa [State.noFault] using hfault
  obtain ⟨k, hk⟩ := List.mem_iff_getElem?.1 hc
  have hmem : c ∈ t.cores :=
    List.mem_of_getElem? (onlyResetRevivesAStoppedCore s t k c hk (.inr hstatus) hstep (hreset k))
  refine ⟨fun hno => hno c hmem hstatus, fun hcomplete => ?_⟩
  have hhalted := hcomplete c hmem
  rw [hstatus] at hhalted
  cases hhalted

/-- Settles O43: a stopped core has no step, and a blocked core's step is the hold. -/
theorem deadlockIsForEver : Obligations.DeadlockIsForEver := by
  intro s t k hdead h
  obtain ⟨u, hf, hstep⟩ := applyMove_coreStep_eq_next.1 h
  obtain hstopped | hblocked := hdead k u hf
  · exact absurd (coreStep_next_iff.1 ⟨t, hstep⟩) hstopped.ne_running
  · obtain rfl : u = t := Host.Outcome.next.inj ((coreStep_of_blocked hblocked).symm.trans hstep)
    exact ⟨focus_cores hf, focus_queues hf⟩

end Sys2Proof.Machine
end

section
/-! The host's pushes and pops: where each is a step and what it does there, and where it is refused (R147, R183,
R205). -/

namespace Sys2Proof.Machine

section HostMoves

variable {s : State} {q : Nat} {v : Word} {rest : List Move}

theorem step_hostPush (ha : s.agenda = .hostPush q v :: rest) :
    step s = if s.hostMayPush q then .next (State.push { s with agenda := rest } q v)
      else .refused .hostInterference :=
  step_cons ha

theorem step_hostPop (ha : s.agenda = .hostPop q :: rest) :
    step s = if s.consumesFrom q then .refused .hostInterference
      else .next (State.pop { s with agenda := rest } q) :=
  step_cons ha

/-- A push the host may make appends at the tail and changes nothing else (R205). -/
theorem step_of_hostMayPush (hwf : Sparse.wf [] s.queues) (ha : s.agenda = .hostPush q v :: rest)
    (hmay : s.hostMayPush q = true) :
    ∃ t, step s = .next t ∧ t.queue q = s.queue q ++ [v] ∧ (∀ p, p ≠ q → t.queue p = s.queue p) ∧
      t.cores = s.cores ∧ t.agenda = rest := by
  refine ⟨_, (step_hostPush ha).trans (if_pos hmay), ?_, fun p hp => ?_, rfl, rfl⟩
  · exact State.queue_setQueue_same (s := { s with agenda := rest }) hwf q _
  · exact State.queue_setQueue_ne { s with agenda := rest } hp _

/-- A pop from a queue that no core consumes removes the head and changes nothing else (R205). -/
theorem step_of_not_consumesFrom (hwf : Sparse.wf [] s.queues) (ha : s.agenda = .hostPop q :: rest)
    (hno : ¬ s.consumesFrom q = true) :
    ∃ t, step s = .next t ∧ t.queue q = (s.queue q).tail ∧ (∀ p, p ≠ q → t.queue p = s.queue p) ∧
      t.cores = s.cores ∧ t.agenda = rest := by
  refine ⟨_, (step_hostPop ha).trans (if_neg hno), ?_, fun p hp => ?_, rfl, rfl⟩
  · exact State.queue_setQueue_same (s := { s with agenda := rest }) hwf q _
  · exact State.queue_setQueue_ne { s with agenda := rest } hp _

/-- A produced queue is closed to the host once some core has run or stopped, and when no core consumes it (R183). -/
theorem not_hostMayPush (hprod : ∃ c ∈ s.cores, c.outQ = q)
    (hclosed : (∃ c ∈ s.cores, c.status ≠ .running ∨ c.trace ≠ []) ∨ ∀ c ∈ s.cores, c.inQ ≠ q) :
    ¬ s.hostMayPush q = true := by
  rw [hostMayPush_iff]
  rintro (hnone | ⟨⟨d, hd, hin⟩, hfresh⟩)
  · obtain ⟨c, hc, hout⟩ := hprod
    exact hnone c hc hout
  · obtain ⟨c, hc, hrun⟩ | hnocons := hclosed
    · obtain ⟨hstatus, htrace⟩ := hfresh c hc
      exact hrun.elim (absurd hstatus) (absurd htrace)
    · exact hnocons d hd hin

end HostMoves

/-- Settles O49: a seeding is a push the host may make. -/
theorem seedingBeforeAnyCoreRuns : Obligations.SeedingBeforeAnyCoreRuns :=
  fun _ _ _ _ hwf ha hcons hfresh => step_of_hostMayPush hwf ha (hostMayPush_iff.2 (.inr ⟨hcons, hfresh⟩))

/-- Settles O48: a push and a pop, each where it is a step and where it is refused. -/
theorem hostPushesAndPops : Obligations.HostPushesAndPops := by
  intro s q v rest hwf
  refine ⟨fun ha hnone => ?_, fun ha hprod hclosed => ?_, fun ha hnone => ?_, fun ha hcons => ?_⟩
  · exact step_of_hostMayPush hwf ha (hostMayPush_iff.2 (.inl hnone))
  · exact (step_hostPush ha).trans (if_neg (not_hostMayPush hprod hclosed))
  · refine step_of_not_consumesFrom hwf ha (mt consumesFrom_iff.1 ?_)
    rintro ⟨c, hc, hin⟩
    exact hnone c hc hin
  · exact (step_hostPop ha).trans (if_pos (consumesFrom_iff.2 hcons))

end Sys2Proof.Machine
end

section
/-! Reset and construction: the wiring rule seen from the active core, what an accepted core leaves of the others, and
the refusal of a shared queue end (R180, R182, R200 to R202). -/

namespace Sys2Proof.Machine

/-! The wiring rule, from the active core. -/

theorem State.mem_others {s : State} {c : CoreState} :
    c ∈ s.before ++ s.after ↔ ∃ j, j ≠ s.before.length ∧ s.cores[j]? = some c := by
  have hothers : s.before ++ s.after = s.cores.eraseIdx s.before.length := by
    simp [State.cores_eq, List.eraseIdx_append_of_length_le]
  rw [hothers, List.mem_eraseIdx_iff_getElem?]

/-- The wiring is legal when no other core shares a queue end with the active core, nor two others with each other
(R182). -/
theorem State.wiringOk_iff {s : State} :
    s.wiringOk ↔
      (∀ c ∈ s.before ++ s.after, c.inQ ≠ s.core.inQ ∧ c.outQ ≠ s.core.outQ) ∧
        ((s.before ++ s.after).map CoreState.inQ).Nodup ∧ ((s.before ++ s.after).map CoreState.outQ).Nodup := by
  have hsplit : ∀ f : CoreState → Nat, (s.cores.map f).Nodup ↔
      (∀ c ∈ s.before ++ s.after, f c ≠ f s.core) ∧ ((s.before ++ s.after).map f).Nodup := by
    intro f
    rw [State.cores_eq, List.map_append, List.map_cons, List.nodup_middle, ← List.map_append, List.nodup_cons]
    simp [or_imp, forall_and]
  rw [State.wiringOk, hsplit, hsplit, and_and_and_comm, ← forall₂_and]

theorem State.not_wiringOk_of_shared {s : State} {c : CoreState} (hc : c ∈ s.before ++ s.after)
    (hshared : c.inQ = s.core.inQ ∨ c.outQ = s.core.outQ) : ¬ s.wiringOk := by
  intro hw
  obtain ⟨hfree, -⟩ := State.wiringOk_iff.1 hw
  obtain ⟨hin, hout⟩ := hfree c hc
  exact hshared.elim hin hout

/-- Two different cores of a legal wiring share no queue end. -/
theorem State.wiringOk.ends_ne {s : State} {j k : Nat} {c d : CoreState} (h : s.wiringOk) (hjk : j ≠ k)
    (hj : s.cores[j]? = some c) (hk : s.cores[k]? = some d) : c.inQ ≠ d.inQ ∧ c.outQ ≠ d.outQ := by
  have hne : ∀ f : CoreState → Nat, (s.cores.map f).Nodup → f c ≠ f d := by
    intro f hf heq
    obtain ⟨hlt, -⟩ := List.getElem?_eq_some_iff.1 hj
    refine hjk ((List.getElem?_inj (by simpa using hlt) hf).1 ?_)
    rw [List.getElem?_map, List.getElem?_map, hj, hk, Option.map_some, Option.map_some, heq]
  exact ⟨hne _ h.1, hne _ h.2⟩

/-! Installing a fresh core. -/

theorem install_of_wiringOk {s : State} {image : List Word} (hlen : image.length ≤ Config.maxMemory)
    (hw : s.wiringOk) : install s image = .next s :=
  install_eq_next.2 ⟨hlen, hw, rfl⟩

theorem install_of_not_wiringOk {s : State} {image : List Word} (hlen : image.length ≤ Config.maxMemory)
    (hw : ¬ s.wiringOk) : install s image = .refused .sharedQueueEnd := by
  rw [install, if_neg hlen.not_gt, if_neg hw]

section Moves

variable {s : State} {image : List Word} {startPos : Word} {inQ outQ : Nat} {rest : List Move}

/-- A construction puts the fresh core behind the others and installs it (R180). -/
theorem step_construct (ha : s.agenda = .construct image startPos inQ outQ :: rest) :
    step s = install
      { s with before := s.cores, core := CoreState.reset image startPos inQ outQ, after := [], agenda := rest }
      image :=
  step_cons ha

/-- A reset of core `k` makes it the active one and installs the fresh core in its place (R202). -/
theorem step_reset {k : Nat} {c : CoreState} (ha : s.agenda = .reset k image startPos inQ outQ :: rest)
    (hc : s.cores[k]? = some c) :
    ∃ u : State, step s = install (u.setCore (CoreState.reset image startPos inQ outQ)) image ∧ u.cores = s.cores ∧
      u.before.length = k ∧ u.queues = s.queues ∧ u.agenda = rest := by
  obtain ⟨u, hf, hcores, hk, -, hqueues, hagenda⟩ := focus_after_move hc rest
  exact ⟨u, by rw [step_cons ha, applyMove, hf], hcores, hk, hqueues, hagenda⟩

end Moves

/-- Settles O46: the fresh core shares no queue end with the others, so it is accepted. -/
theorem constructAddsACore : Obligations.ConstructAddsACore := by
  intro s image startPos inQ outQ rest ha hlen hw hfree
  have hwiring : State.wiringOk
      { s with before := s.cores, core := CoreState.reset image startPos inQ outQ, after := [], agenda := rest } := by
    rw [State.wiringOk_iff, List.append_nil]
    exact ⟨hfree, hw⟩
  exact ⟨_, CoreState.reset image startPos inQ outQ, (step_construct ha).trans (install_of_wiringOk hlen hwiring), rfl,
    rfl, rfl, rfl, rfl, rfl, rfl, Memory.read_ofImage image, rfl, rfl⟩

/-- Settles O45: the other cores keep the wiring legal with the fresh core among them, so it is accepted. -/
theorem resetLoadsTheCore : Obligations.ResetLoadsTheCore := by
  intro s k image startPos inQ outQ rest c ha hc hlen hw hfree
  obtain ⟨u, hstep, hcores, hk, hqueues, hagenda⟩ := step_reset ha hc
  rw [State.wiringOk, ← hcores, ← State.wiringOk, State.wiringOk_iff] at hw
  obtain ⟨-, hothers⟩ := hw
  have hwiring : (u.setCore (CoreState.reset image startPos inQ outQ)).wiringOk := by
    refine State.wiringOk_iff.2 ⟨fun d hd => ?_, hothers⟩
    obtain ⟨j, hj, hjd⟩ := (State.mem_others (s := u)).1 hd
    exact hfree j d (hk ▸ hj) (hcores ▸ hjd)
  have hset : (u.setCore (CoreState.reset image startPos inQ outQ)).cores =
      s.cores.set k (CoreState.reset image startPos inQ outQ) := by rw [setCore_cores, hcores, hk]
  obtain ⟨hlt, -⟩ := List.getElem?_eq_some_iff.1 hc
  refine ⟨_, CoreState.reset image startPos inQ outQ, hstep.trans (install_of_wiringOk hlen hwiring), ?_, rfl, rfl, rfl,
    rfl, rfl, rfl, rfl, Memory.read_ofImage image, hqueues, fun j hj => ?_, hagenda⟩
  · rw [hset, List.getElem?_set_self hlt]
  · rw [hset, List.getElem?_set_ne hj.symm]

/-- Settles O47: a core that shares an end with the fresh one is among the others, so the wiring is not legal. -/
theorem sharedQueueEndIsRefused : Obligations.SharedQueueEndIsRefused := by
  intro s image startPos inQ outQ rest j d hlen hj hshared
  refine ⟨fun ha => ?_, fun k c hkj hc ha => ?_⟩
  · rw [step_construct ha]
    refine install_of_not_wiringOk hlen (State.not_wiringOk_of_shared ?_ hshared)
    exact List.mem_append_left _ (List.mem_of_getElem? hj)
  · obtain ⟨u, hstep, hcores, rfl, -⟩ := step_reset ha hc
    rw [hstep]
    refine install_of_not_wiringOk hlen (State.not_wiringOk_of_shared ?_ hshared)
    exact (State.mem_others (s := u)).2 ⟨j, hkj.symm, hcores ▸ hj⟩

end Sys2Proof.Machine
end

section
/-! The cause of a fault entry: each fault a core's step raises is one that R160 says is raised in that state (R160,
R161, R170). -/

namespace Sys2Proof

theorem Instr.length_paramModes (i : Instr) : i.paramModes.length = i.mnemonic.params := by
  cases i <;> rfl

theorem Mnemonic.writeTarget_le {m : Mnemonic} {k : Nat} (h : m.writeTarget = some k) : 1 ≤ k ∧ k ≤ m.params := by
  cases m <;> cases h <;> decide

/-- A mode word has a lowest reserved digit among its first `n`, or none (R60). -/
theorem lowestReserved_or_modesLegal (mode n : Nat) :
    (∃ k, 1 ≤ k ∧ k ≤ n ∧ 2 ≤ digit mode (k - 1) ∧ ∀ j, 1 ≤ j → j < k → digit mode (j - 1) < 2) ∨
      ∀ k, 1 ≤ k → k ≤ n → digit mode (k - 1) < 2 := by
  by_cases hbad : ∃ k, 1 ≤ k ∧ k ≤ n ∧ 2 ≤ digit mode (k - 1)
  · obtain ⟨k, ⟨h1, hk, hd⟩, hlow⟩ := Nat.findX hbad
    refine .inl ⟨k, h1, hk, hd, fun j hj hjk => ?_⟩
    by_contra hge
    exact hlow j hjk ⟨hj, by omega, by omega⟩
  · refine .inr fun k h1 hk => ?_
    by_contra hge
    exact hbad ⟨k, h1, hk, by omega⟩

end Sys2Proof

namespace Sys2Proof.Machine

/-! Decode faults, from the classification of the instruction word (R60). -/

section DecodeFaults

variable {c : CoreState} {w : Word} {e : DecodeError}

/-- In a word of a known row, a decode error is its lowest reserved mode digit or its immediate write target. -/
theorem warrants_decodeCause_of_row {m : Mnemonic} (hw : c.mem.read c.ip.toInt = some w) (h0 : 0 ≤ w.toInt)
    (hm : m.code = w.toInt.toNat % 100) (he : decode w = .error e) : c.Warrants (decodeCause w e) := by
  obtain ⟨-, hsplit⟩ := decodeClassifiesEveryWord w
  obtain ⟨-, hrow⟩ := hsplit w.toInt.toNat (Int.toNat_of_nonneg h0).symm
  obtain ⟨hreserved, hlegal⟩ := hrow m hm
  obtain ⟨k, h1, hk, hd, hlow⟩ | hlt := lowestReserved_or_modesLegal (w.toInt.toNat / 100) m.params
  · obtain rfl := Except.error.inj ((hreserved k h1 hk hd hlow).symm.trans he)
    exact ⟨hw, h0, m, hm, h1, hk, rfl, hd⟩
  · obtain ⟨himmediate, hok⟩ := hlegal hlt
    by_cases htarget : ∃ k, m.writeTarget = some k ∧ digit (w.toInt.toNat / 100) (k - 1) = 1
    · obtain ⟨k, hk, hd⟩ := htarget
      obtain rfl := Except.error.inj ((himmediate k hk hd).symm.trans he)
      exact ⟨w, hw, h0, m, hm, hk, hd⟩
    · obtain ⟨i, hi, -⟩ := hok fun k hk => by
        obtain ⟨h1, hle⟩ := Mnemonic.writeTarget_le hk
        have hbit := hlt k h1 hle
        have hne : digit (w.toInt.toNat / 100) (k - 1) ≠ 1 := fun hd => htarget ⟨k, hk, hd⟩
        omega
      rw [hi] at he
      cases he

/-- A decode error is warranted by the word at `ip` (R88). -/
theorem warrants_decodeCause (hw : c.mem.read c.ip.toInt = some w) (he : decode w = .error e) :
    c.Warrants (decodeCause w e) := by
  obtain ⟨hnegative, hsplit⟩ := decodeClassifiesEveryWord w
  obtain hneg | h0 := lt_or_ge w.toInt 0
  · obtain rfl := Except.error.inj ((hnegative hneg).symm.trans he)
    exact ⟨hw, hneg⟩
  · by_cases hrow : ∃ m : Mnemonic, m.code = w.toInt.toNat % 100
    · obtain ⟨m, hm⟩ := hrow
      exact warrants_decodeCause_of_row hw h0 hm he
    · have hno := not_exists.1 hrow
      obtain ⟨hunknown, -⟩ := hsplit w.toInt.toNat (Int.toNat_of_nonneg h0).symm
      obtain rfl := Except.error.inj ((hunknown hno).symm.trans he)
      exact ⟨hw, h0, rfl, hno⟩

end DecodeFaults

/-! Faults of operand resolution. -/

/-- Every parameter from `k` on, in the listed modes, has a value. -/
def CoreState.AllRead (c : CoreState) : Nat → List Mode → Prop
  | _, [] => True
  | k, d :: ds => (∃ x, c.Reads k d x) ∧ c.AllRead (k + 1) ds

/-- Resolution left to right meets a first fault or reads every parameter (R71). -/
theorem CoreState.firstFault_or_allRead (c : CoreState) (k : Nat) (ds : List Mode) :
    (∃ e, c.FirstFault e k ds) ∨ c.AllRead k ds := by
  induction ds generalizing k with
  | nil => exact .inr trivial
  | cons d ds ih =>
    cases hd : resolve c k d with
    | error e => exact .inl ⟨e, .here hd⟩
    | ok p =>
      obtain ⟨e, he⟩ | hrest := ih (k + 1)
      · exact .inl ⟨e, .later hd he⟩
      · exact .inr ⟨⟨p.value, reads_of_resolve hd⟩, hrest⟩

theorem CoreState.FirstFault.exists_resolve {c : CoreState} {e : FaultCause} {k : Nat} {ds : List Mode}
    (h : c.FirstFault e k ds) : ∃ j d, ds[j]? = some d ∧ resolve c (k + j) d = .error e := by
  induction h with
  | here fault => exact ⟨0, _, rfl, fault⟩
  | later _ _ ih =>
    obtain ⟨j, d, hd, hj⟩ := ih
    exact ⟨j + 1, d, hd, by rwa [← Nat.succ_add_eq_add_succ]⟩

/-- A parameter faults at its slot, or in position mode at the address its word names (R72). -/
theorem resolve_error_cases {c : CoreState} {k : Nat} {d : Mode} {e : FaultCause} (h : resolve c k d = .error e) :
    (¬ c.mem.valid (c.slot k) ∧ e = .slot k (c.slot k)) ∨
      ∃ v, d = .position ∧ c.mem.read (c.slot k) = some v ∧ ¬ c.mem.valid v.toInt ∧ e = .pointer k v.toInt := by
  cases hv : c.mem.read (c.slot k) with
  | none =>
    rw [resolve_of_read_slot_none hv] at h
    exact .inl ⟨Memory.read_eq_none.1 hv, (Except.error.inj h).symm⟩
  | some v =>
    cases d with
    | immediate => rw [resolve_immediate_of_read hv] at h; cases h
    | position =>
      cases hx : c.mem.read v.toInt with
      | none =>
        rw [resolve_position_of_read_none hv hx] at h
        exact .inr ⟨v, rfl, rfl, Memory.read_eq_none.1 hx, (Except.error.inj h).symm⟩
      | some x => rw [resolve_position_of_read hv hx] at h; cases h

/-- A fault of operand resolution is warranted by the parameter it names (R160). -/
theorem CoreState.FirstFault.warrants {c : CoreState} {w : Word} {i : Instr} {e : FaultCause}
    (h : c.FirstFault e 1 i.paramModes) (hw : c.mem.read c.ip.toInt = some w) (hi : decode w = .ok i) :
    c.Warrants e := by
  obtain ⟨j, d, hd, hj⟩ := h.exists_resolve
  rw [Nat.add_comm] at hj
  obtain ⟨hlen, -⟩ := List.getElem?_eq_some_iff.1 hd
  rw [i.length_paramModes] at hlen
  obtain ⟨hslot, rfl⟩ | ⟨v, rfl, hv, hout, rfl⟩ := resolve_error_cases hj
  · obtain ⟨hip, -⟩ := Memory.valid_of_read hw
    refine ⟨w, i, hw, hi, by omega, by omega, rfl, ?_⟩
    simp only [Memory.valid, CoreState.slot] at hslot ⊢
    omega
  · exact ⟨w, i, v, hw, hi, by omega, hd, hv, rfl, by simp only [Memory.valid] at hout; omega⟩

/-! Overflow. -/

theorem CoreState.Reads.exists_targets {c : CoreState} {k : Nat} {x : Word} (h : c.Reads k .position x) :
    ∃ p, c.Targets k p := by
  obtain ⟨v, hv, hx⟩ := h
  obtain ⟨h0, hlt⟩ := Memory.valid_of_read hx
  exact ⟨v.toInt.toNat, v, hv, by omega, by omega⟩

/-- A range-checked F3 instruction that reads its parameters faults by an overflow alone (R102). -/
theorem execF3_checked_of_faulted {m : Mnemonic} {exact : Word → Word → Int} {a b : Mode} {n : Nat} {s t : State}
    {x y : Word} {p : Nat} (hs : s.core.status = .running) (hx : s.core.Reads 1 a x) (hy : s.core.Reads 2 b y)
    (hp : s.core.Targets 3 p) (h : execF3 m (checked m exact) a b n s = .next t) (ht : t.core.status = .faulted) :
    (exact x y < wMin ∨ wMax < exact x y) ∧ t = s.raise (.overflow m.code x y) := by
  by_cases hrange : wMin ≤ exact x y ∧ exact x y ≤ wMax
  · obtain ⟨hmin, hmax⟩ := hrange
    obtain ⟨r, hr, -⟩ := checked_of_range (m := m) hmin hmax
    rw [execF3_completes hx hy hp hr] at h
    cases h
    exact absurd (hs.symm.trans ht) (by decide)
  · have hout : exact x y < wMin ∨ wMax < exact x y := by omega
    rw [execF3_raises hx hy hp (checked_of_overflow hout)] at h
    exact ⟨hout, (Host.Outcome.next.inj h).symm⟩

/-- An instruction that reads its parameters faults by an overflow of add or multiply alone (R160). -/
theorem exec_warrants_of_allRead {i : Instr} {s t : State} {w : Word} (hs : s.core.status = .running)
    (hw : s.core.mem.read s.core.ip.toInt = some w) (hi : decode w = .ok i) (hread : s.core.AllRead 1 i.paramModes)
    (h : exec i s = .next t) (ht : t.core.status = .faulted) : ∃ e, s.core.Warrants e ∧ t = s.raise e := by
  have hne : t.core.status ≠ s.core.status := by rw [hs, ht]; decide
  cases i with
  | add a b n =>
    obtain ⟨⟨x, hx⟩, ⟨y, hy⟩, ⟨z, hz⟩, -⟩ := hread
    obtain ⟨p, hp⟩ := hz.exists_targets
    obtain ⟨hout, rfl⟩ := execF3_checked_of_faulted hs hx hy hp h ht
    exact ⟨.overflow 1 x y, ⟨w, _, a, b, n, _, hw, hi, hx, hy, hout, .inl ⟨rfl, rfl, rfl⟩⟩, rfl⟩
  | multiply a b n =>
    obtain ⟨⟨x, hx⟩, ⟨y, hy⟩, ⟨z, hz⟩, -⟩ := hread
    obtain ⟨p, hp⟩ := hz.exists_targets
    obtain ⟨hout, rfl⟩ := execF3_checked_of_faulted hs hx hy hp h ht
    exact ⟨.overflow 2 x y, ⟨w, _, a, b, n, _, hw, hi, hx, hy, hout, .inr ⟨rfl, rfl, rfl⟩⟩, rfl⟩
  | lessThan a b n | equals a b n =>
    obtain ⟨⟨x, hx⟩, ⟨y, hy⟩, ⟨z, hz⟩, -⟩ := hread
    obtain ⟨p, hp⟩ := hz.exists_targets
    simp only [exec, execLessThan, execEquals] at h
    rw [execF3_completes hx hy hp rfl] at h
    cases h
    exact absurd rfl hne
  | jumpIfTrue a b n | jumpIfFalse a b n =>
    obtain ⟨⟨x, hx⟩, ⟨y, hy⟩, -⟩ := hread
    simp only [exec, execJumpIfTrue, execJumpIfFalse, execF2_completes hx hy] at h
    cases h
    split at hne <;> exact absurd rfl hne
  | store n =>
    obtain ⟨⟨z, hz⟩, -⟩ := hread
    obtain ⟨p, hp⟩ := hz.exists_targets
    cases hq : s.inputQueue with
    | nil => rw [exec_store_of_inputQueue_nil hp hq] at h; cases h; exact absurd rfl hne
    | cons v rest => rw [exec_store_of_inputQueue_cons hp hq] at h; cases h; exact absurd rfl hne
  | output a n =>
    obtain ⟨⟨x, hx⟩, -⟩ := hread
    rw [exec_output_of_reads hx] at h
    cases h
    exact absurd rfl hne
  | halt n => cases h; cases ht

/-- Settles O28, by the phase of the step that faults: fetch, decode, operand resolution, or the execution of add or
multiply. -/
theorem faultEntryChangesNothingElse : Obligations.FaultEntryChangesNothingElse := by
  intro s t h ht
  simp only [← State.raise_eq_faultedWith]
  obtain ⟨hs, ⟨hip, rfl⟩ | ⟨w, hw, ⟨e, he, rfl⟩ | ⟨i, hi, hexec⟩⟩⟩ := coreStep_cases h
  · exact ⟨.fetch s.core.ip.toInt, ⟨rfl, by simp only [Memory.valid] at hip; omega⟩, rfl⟩
  · exact ⟨_, warrants_decodeCause hw he, rfl⟩
  · obtain ⟨e, he⟩ | hread := s.core.firstFault_or_allRead 1 i.paramModes
    · rw [exec_of_firstFault he] at hexec
      exact ⟨e, he.warrants hw hi, (Host.Outcome.next.inj hexec).symm⟩
    · exact exec_warrants_of_allRead hs hw hi hread hexec ht

end Sys2Proof.Machine
end

section
/-! Steps of two different cores commute (R181, R182, R186): the one core's step leaves the other all that its step
reads, and what the two do to cores and queues does not depend on the order. -/

namespace Sys2Proof.Machine

/-! A core that does not hold steps alike with more behind the head of its input queue. -/

section Runs

variable {s t : State}

/-- A store is the only instruction that reads the input queue. -/
theorem exec_sameRun_of_store (h : SameEffect s s t t) {i : Instr}
    (hstore : ∀ n, i = .store n → SameRun s t (execStore n)) : SameRun s t (exec i) := by
  cases i with
  | add a b n | multiply a b n => exact execF3_sameRun h _ _ a b n
  | lessThan a b n => exact execF3_sameRun h _ (fun x y => .ok (lessResult x y)) a b n
  | equals a b n => exact execF3_sameRun h _ (fun x y => .ok (equalResult x y)) a b n
  | jumpIfTrue a b n | jumpIfFalse a b n => exact execF2_sameRun h _ _ a b n
  | store n => exact hstore n rfl
  | output a n => exact execOutput_sameRun h a n
  | halt n => exact ⟨_, _, rfl, rfl, (h.retireNext _ _).setHalted⟩

/-- A step that is not at a store whose target resolves depends on `ip` and memory alone. -/
theorem coreStep_sameRun_of_not_atStore (hs : s.core.status = .running) (h : SameEffect s s t t)
    (hstore : s.atStore = false) : SameRun s t coreStep := by
  simp only [SameRun, coreStep, hs, ← h.status, ← fetch_congr h.ip h.mem]
  cases hf : s.core.fetch with
  | error e => exact ⟨_, _, rfl, rfl, h.raise e⟩
  | ok w =>
    cases hw : decode w with
    | error e => simp only [hw]; exact ⟨_, _, rfl, rfl, h.raise _⟩
    | ok i =>
      simp only [hw]
      refine exec_sameRun_of_store h ?_
      rintro n rfl
      have hnext : s.nextInstr = some (.store n) := nextInstr_eq_some.2 ⟨hs, w, fetch_eq_ok.1 hf, hw⟩
      cases hp : resolveTarget s.core 1 with
      | ok p =>
        rw [atStore_iff.2 ⟨⟨n, hnext⟩, p, resolveTarget_eq_ok.1 hp⟩] at hstore
        cases hstore
      | error e =>
        simp only [SameRun, execStore, ← resolveTarget_congr h.ip h.mem, hp]
        exact ⟨_, _, rfl, rfl, h.raise e⟩

theorem coreStep_sameRun_of_not_blocked (hs : s.core.status = .running) (hcore : t.core = s.core)
    (hblocked : s.blocked = false) (hhead : ∀ v, s.inputQueue.head? = some v → t.inputQueue.head? = some v) :
    SameRun s t coreStep := by
  cases hq : s.inputQueue with
  | nil =>
    refine coreStep_sameRun_of_not_atStore hs ?_ (by simpa [State.blocked, hq] using hblocked)
    exact .start hs (hcore ▸ hs) (by rw [hcore]) (by rw [hcore])
  | cons v rest =>
    have hv : s.inputQueue.head? = some v := by rw [hq, List.head?_cons]
    exact coreStep_sameRun hs (hcore ▸ hs) (by rw [hcore]) (by rw [hcore]) (hv.trans (hhead v hv).symm)

/-! The core a step ends with. -/

theorem coreStep_fault_eq (h : coreStep s = .next t) (hne : t.core.status ≠ .faulted) :
    t.core.fault = s.core.fault := by
  obtain ⟨-, ⟨e, rfl⟩ | ⟨w, i, -, -, ⟨rfl, -⟩ | hc⟩⟩ := coreStep_ends h
  exacts [absurd rfl hne, rfl, hc.fault]

theorem CoreState.eq_of_fields {c d : CoreState} (hip : c.ip = d.ip) (hstatus : c.status = d.status)
    (hfault : c.fault = d.fault) (hmem : c.mem = d.mem) (htrace : c.trace = d.trace) (hin : c.inQ = d.inQ)
    (hout : c.outQ = d.outQ) : c = d := by
  cases c
  cases d
  simp_all

/-- Steps of equal cores with the same effect end with equal cores. -/
theorem SameEffect.core_eq {s' t' : State} (h : SameEffect s s' t t') (hcore : t.core = s.core)
    (hs : coreStep s = .next s') (ht : coreStep t = .next t') : t'.core = s'.core := by
  obtain ⟨-, -, -, hsin, hsout, -⟩ := coreStep_frame hs
  obtain ⟨-, -, -, htin, htout, -⟩ := coreStep_frame ht
  obtain ⟨more, hstrace, httrace⟩ := h.trace
  have hfault : t'.core.fault = s'.core.fault := by
    by_cases hf : s'.core.status = .faulted
    · exact (h.fault hf).symm
    · rw [coreStep_fault_eq hs hf, coreStep_fault_eq ht (h.status ▸ hf), hcore]
  refine CoreState.eq_of_fields h.ip.symm h.status.symm hfault h.mem.symm ?_ ?_ ?_
  · rw [httrace, hstrace, hcore]
  · rw [htin, hsin, hcore]
  · rw [htout, hsout, hcore]

end Runs

/-! One core's step after the other's. -/

/-- A core's step keeps the head of every queue but its own input queue (R141). -/
theorem coreStep_head?_queue {s t : State} {q : Nat} {v : Word} (hwf : Sparse.wf [] s.queues)
    (h : coreStep s = .next t) (hq : q ≠ s.core.inQ) (hv : (s.queue q).head? = some v) :
    (t.queue q).head? = some v := by
  obtain ⟨popped, pushed, htraffic, -, -⟩ := coreStep_queueTraffic hwf h
  have happend := htraffic q
  rw [if_neg hq, List.nil_append] at happend
  rw [← happend, List.head?_append, hv, Option.some_or]

/-- A core's step leaves every other core as it was (R180). -/
theorem focus_after_other {s ti tj si : State} {i j : Nat} (hij : i ≠ j) (hi : s.focus i = some ti)
    (hj : s.focus j = some tj) (hstep : coreStep ti = .next si) :
    ∃ tj', si.focus j = some tj' ∧ tj'.core = tj.core ∧ tj'.queues = si.queues := by
  have hcore : si.cores[j]? = some tj.core := by
    rw [focus_coreStep_cores hi hstep, List.getElem?_set_ne hij, focus_core hj]
  exact ⟨_, focus_eq_some.2 ⟨tj.core, hcore, rfl⟩, rfl, rfl⟩

/-- After core `i`'s step, core `j`'s step still happens, ends with the same core `j`, and makes the same queue traffic
from the queues as they then stand. -/
theorem coreStep_after_other {s ti tj si sj : State} {i j : Nat} (hinv : s.Inv) (hij : i ≠ j)
    (hi : s.focus i = some ti) (hj : s.focus j = some tj) (hstepi : coreStep ti = .next si)
    (hstepj : coreStep tj = .next sj) (hblocked : tj.blocked = false) :
    ∃ u, applyMove (.coreStep j) si = .next u ∧ u.cores = (s.cores.set i si.core).set j sj.core ∧
      Sparse.wf [] u.queues ∧ ∃ popped pushed, tj.QueueTraffic sj popped pushed ∧
        State.QueueTraffic { tj with queues := si.queues } u popped pushed := by
  have hwfi : Sparse.wf [] ti.queues := focus_queues hi ▸ hinv.queues
  have hwfj : Sparse.wf [] tj.queues := focus_queues hj ▸ hinv.queues
  obtain ⟨tj', hj', hcore, hqueues⟩ := focus_after_other hij hi hj hstepi
  have hwf : Sparse.wf [] tj'.queues := hqueues ▸ coreStep_queues_wf hstepi hwfi
  have hends : tj.core.inQ ≠ ti.core.inQ :=
    (hinv.wiring.ends_ne hij.symm (focus_core hj) (focus_core hi)).1
  have hhead : ∀ v, tj.inputQueue.head? = some v → tj'.inputQueue.head? = some v := by
    intro v hv
    rw [State.inputQueue, State.queue_congr ((focus_queues hj).trans (focus_queues hi).symm)] at hv
    rw [State.inputQueue, hcore, State.queue_congr hqueues]
    exact coreStep_head?_queue hwfi hstepi hends hv
  obtain ⟨sj', u, hsj', hu, hsame⟩ :=
    coreStep_sameRun_of_not_blocked (coreStep_next_iff.1 ⟨sj, hstepj⟩) hcore hblocked hhead
  obtain rfl : sj' = sj := Host.Outcome.next.inj (hsj'.symm.trans hstepj)
  have hcoreu : u.core = sj'.core := hsame.core_eq hcore hstepj hu
  obtain ⟨popped, pushed, htraffic, htraffic'⟩ := hsame.traffic
  refine ⟨u, applyMove_coreStep_eq_next.2 ⟨tj', hj', hu⟩, ?_, coreStep_queues_wf hu hwf, popped, pushed,
    htraffic hwfj, fun q => ?_⟩
  · rw [focus_coreStep_cores hj' hu, hcoreu, focus_coreStep_cores hi hstepi]
  · have hq := htraffic' hwf q
    rwa [hcore, State.queue_congr hqueues] at hq

/-! The order does not matter. -/

/-- From `q`, two orders of appending `ai`, `aj` and removing the heads `bi`, `bj` end alike when the parts commute. -/
theorem eq_of_commuting_traffic {α : Type} {q qi qj u v ai aj bi bj : List α} (hi : q ++ ai = bi ++ qi)
    (hj : q ++ aj = bj ++ qj) (hu : qi ++ aj = bj ++ u) (hv : qj ++ ai = bi ++ v) (ha : ai ++ aj = aj ++ ai)
    (hb : bi ++ bj = bj ++ bi) : u = v := by
  refine List.append_cancel_left (as := bi ++ bj) ?_
  calc bi ++ bj ++ u
    _ = bi ++ qi ++ aj := by rw [List.append_assoc, ← hu, List.append_assoc]
    _ = q ++ (ai ++ aj) := by rw [← hi, List.append_assoc]
    _ = q ++ aj ++ ai := by rw [ha, List.append_assoc]
    _ = bj ++ bi ++ v := by rw [hj, List.append_assoc, hv, List.append_assoc]
    _ = bi ++ bj ++ v := by rw [hb]

theorem append_ite_comm {α : Type} {a b : Nat} (hab : a ≠ b) (q : Nat) (x y : List α) :
    (if q = a then x else []) ++ (if q = b then y else []) =
      (if q = b then y else []) ++ (if q = a then x else []) := by
  by_cases ha : q = a
  · have hb : q ≠ b := fun hb => hab (ha.symm.trans hb)
    simp [hb]
  · simp [ha]

/-- Settles O44: by `coreStep_after_other` in both orders, since the two cores share no queue end. -/
theorem stepsOfDifferentCoresCommute : Obligations.StepsOfDifferentCoresCommute := by
  intro s si sj ti tj i j hinv hij hi hj hbi hbj hmovei hmovej
  obtain ⟨_, hi', hstepi⟩ := applyMove_coreStep_eq_next.1 hmovei
  obtain rfl := Option.some.inj (hi.symm.trans hi')
  obtain ⟨_, hj', hstepj⟩ := applyMove_coreStep_eq_next.1 hmovej
  obtain rfl := Option.some.inj (hj.symm.trans hj')
  obtain ⟨u, hu, hucores, huwf, popj, pushj, htj, htj'⟩ :=
    coreStep_after_other hinv hij hi hj hstepi hstepj hbj
  obtain ⟨v, hv, hvcores, hvwf, popi, pushi, hti, hti'⟩ :=
    coreStep_after_other hinv hij.symm hj hi hstepj hstepi hbi
  obtain ⟨hin, hout⟩ := hinv.wiring.ends_ne hij (focus_core hi) (focus_core hj)
  refine ⟨u, v, hu, hv, ?_, Sparse.ext_of_get huwf hvwf fun q => ?_⟩
  · rw [hucores, hvcores, List.set_comm _ _ hij]
  · have hq : tj.queue q = ti.queue q := State.queue_congr ((focus_queues hj).trans (focus_queues hi).symm) q
    exact eq_of_commuting_traffic (hti q) (hq ▸ htj q) (htj' q) (hti' q) (append_ite_comm hout q _ _)
      (append_ite_comm hin q _ _)

end Sys2Proof.Machine
end
